-- ==== Sys2Proof/Word.lean ====
section
/-! DEFINITION. The widths the spec gives its values (spec/00_scope.md R6, R7, R18, R19). -/

namespace Sys2Proof

/-- A memory byte, a general register, a timer, the operand `kk` (R6, R20, R32). -/
abbrev Byte := BitVec 8

/-- An instruction word, `PC`, `I`, a stack entry (R7, R8, R90). -/
abbrev Word := BitVec 16

/-- The operand `nnn` (R19, R92). -/
abbrev Addr := BitVec 12

/-- A register index, the fields `x` and `y` and `WaitX` (R19, R38, R92). -/
abbrev RegIdx := BitVec 4

/-- A four-bit field that is no register index: the class and the row count `n` (R19). -/
abbrev Nibble := BitVec 4

end Sys2Proof
end

