-- ==== Sys2Proof/Config.lean ====
section
/-! DEFINITION. What is fixed for the life of one machine and is not state (spec/10_state.md R41; spec/00_scope.md R9,
R13 to R15), and the one value the spec leaves free, the random byte (R17). Which values the machine of this package is
built with is said in Sys2Proof/Machine/Params.lean. -/

namespace Sys2Proof

/-- `DRAW_EDGE`: what becomes of sprite cells past the right or bottom edge (R13, R155). -/
inductive DrawEdge where
  | wrap
  | clip
  deriving DecidableEq, Repr

/-- `SHIFT_SOURCE`: the register 8xy6 and 8xyE shift (R15). -/
inductive ShiftSource where
  | vx
  | vy
  deriving DecidableEq, Repr

/-- `BNNN_MODE`: whether class 0xB is the jump with offset or an unknown opcode (R15, R99). -/
inductive BnnnMode where
  | jumpV0
  | unknown
  deriving DecidableEq, Repr

/-- The configuration fields of R9 and R13 to R15. -/
structure Config where
  /-- `DRAW_EDGE` (R13). -/
  drawEdge : DrawEdge
  /-- `INDEX_ADVANCE`: whether Fx55 and Fx65 leave `I` past the block (R14). -/
  indexAdvance : Bool
  /-- `SHIFT_SOURCE` (R15). -/
  shiftSource : ShiftSource
  /-- `LOGIC_RESETS_VF`: whether 8xy1, 8xy2, 8xy3 write 0 to `VF` (R15). -/
  logicResetsVF : Bool
  /-- `BNNN_MODE` (R15). -/
  bnnnMode : BnnnMode
  /-- `MEM_SIZE`; R9 admits every size from 4096 up. -/
  memSize : Nat
  deriving DecidableEq, Repr

namespace Config

/-- The defaults of R9 and R13 to R15. -/
def default : Config where
  drawEdge := .wrap
  indexAdvance := true
  shiftSource := .vx
  logicResetsVF := false
  bnnnMode := .jumpV0
  memSize := 4096

/-- The one bound the spec sets on a configuration: `MEM_SIZE ≥ 4096` (R9). -/
def admissible (cfg : Config) : Bool := decide (4096 ≤ cfg.memSize)

/-- The oracle byte `Rand()` of the `k`-th draw: ANY byte, which nothing constrains (R17, R214). It has no body, so no
proof can see a value of it. DESIGN CHOICE, notes/assumptions/2.md. -/
opaque randomByte : Nat → Byte

end Config

end Sys2Proof
end

