-- ==== Sys2Proof/Machine/Params.lean ====
section
/-! DEFINITION. The values the machine of this package is built with: its configuration, and the constants of
spec/00_scope.md R9 and R12. -/

namespace Sys2Proof

/-- The configuration of the machine that `exec` and `step` are: the defaults the spec decides (R9, R13 to R15). The same
machine at every other configuration is `execIn` and `stepIn` (Sys2Proof/Machine/Configured.lean).
DESIGN CHOICE, notes/assumptions/1.md. -/
def config : Config := Config.default

/-- `ADDR_LIMIT`, the boundary of Fx1E; it stays 0x1000 whatever `MEM_SIZE` is (R9). -/
def addrLimit : Nat := 0x1000

/-- `PROGRAM_BASE`, where a program is loaded and where `PC` starts (R12, R342). -/
def programBase : Word := 0x200#16

/-- `FONT_BASE`, the address of glyph 0 (R12). -/
def fontBase : Nat := 0x000

/-- `FONT_GLYPH_BYTES` (R12). -/
def fontGlyphBytes : Nat := 5

end Sys2Proof
end

