-- ==== Sys2Proof/Machine/Flags.lean ====
section
/-! DEFINITION. The values `VF` receives as a flag: every one of spec/43_arithmetic_logic.md R215 and the collision of
spec/41_display.md R154. -/

namespace Sys2Proof.Machine

/-- 1 or 0. -/
def flagByte (b : Bool) : Byte := if b then 1#8 else 0#8

/-- The carry of 8xy4: the sum passes 255 (R206). -/
def carryFlag (a b : Byte) : Byte := flagByte (decide (255 < a.toNat + b.toNat))

/-- No borrow in `a - b`: `a ≥ b` (R207, R209). -/
def notBorrowFlag (a b : Byte) : Byte := flagByte (decide (b.toNat ≤ a.toNat))

/-- Bit 0 before a right shift (R208). -/
def shiftedOutRight (b : Byte) : Byte := flagByte (b.getLsbD 0)

/-- Bit 7 before a left shift (R210). -/
def shiftedOutLeft (b : Byte) : Byte := flagByte (b.getLsbD 7)

/-- The memory boundary of Fx1E: the sum reaches `ADDR_LIMIT` (R231). -/
def boundaryFlag (t : Nat) : Byte := flagByte (decide (addrLimit ≤ t))

/-- The collision of DRW (R154). -/
def collisionFlag (hit : Bool) : Byte := flagByte hit

end Sys2Proof.Machine
end

