-- ==== Sys2Proof/Syntax.lean ====
section
/-! DEFINITION. The instruction set: one constructor per row of spec/opcode_table.json (spec/30_encoding.md R100), with
the fields of R91 and R92 as arguments. -/

namespace Sys2Proof

/-- The 35 instructions of R100. -/
inductive Instr where
  /-- 00E0 CLS -/
  | cls
  /-- 00EE RET -/
  | ret
  /-- 0nnn SYS nnn -/
  | sysNnn (nnn : Addr)
  /-- 1nnn JP nnn -/
  | jpNnn (nnn : Addr)
  /-- 2nnn CALL nnn -/
  | callNnn (nnn : Addr)
  /-- 3xkk SE Vx,kk -/
  | seVxKk (x : RegIdx) (kk : Byte)
  /-- 4xkk SNE Vx,kk -/
  | sneVxKk (x : RegIdx) (kk : Byte)
  /-- 5xyn SE Vx,Vy; `n` is ignored and no part of the instruction (R95) -/
  | seVxVy (x y : RegIdx)
  /-- 6xkk LD Vx,kk -/
  | ldVxKk (x : RegIdx) (kk : Byte)
  /-- 7xkk ADD Vx,kk -/
  | addVxKk (x : RegIdx) (kk : Byte)
  /-- 8xy0 LD Vx,Vy -/
  | ldVxVy (x y : RegIdx)
  /-- 8xy1 OR Vx,Vy -/
  | orVxVy (x y : RegIdx)
  /-- 8xy2 AND Vx,Vy -/
  | andVxVy (x y : RegIdx)
  /-- 8xy3 XOR Vx,Vy -/
  | xorVxVy (x y : RegIdx)
  /-- 8xy4 ADD Vx,Vy -/
  | addVxVy (x y : RegIdx)
  /-- 8xy5 SUB Vx,Vy -/
  | subVxVy (x y : RegIdx)
  /-- 8xy6 SHR Vx,Vy -/
  | shrVxVy (x y : RegIdx)
  /-- 8xy7 SUBN Vx,Vy -/
  | subnVxVy (x y : RegIdx)
  /-- 8xyE SHL Vx,Vy -/
  | shlVxVy (x y : RegIdx)
  /-- 9xyn SNE Vx,Vy; `n` is ignored and no part of the instruction (R95) -/
  | sneVxVy (x y : RegIdx)
  /-- Annn LD I,nnn -/
  | ldINnn (nnn : Addr)
  /-- Bnnn JP V0,nnn -/
  | jpV0Nnn (nnn : Addr)
  /-- Cxkk RND Vx,kk -/
  | rndVxKk (x : RegIdx) (kk : Byte)
  /-- Dxyn DRW Vx,Vy,n -/
  | drwVxVyN (x y : RegIdx) (n : Nibble)
  /-- Ex9E SKP Vx -/
  | skpVx (x : RegIdx)
  /-- ExA1 SKNP Vx -/
  | sknpVx (x : RegIdx)
  /-- Fx07 LD Vx,DT -/
  | ldVxDt (x : RegIdx)
  /-- Fx0A LD Vx,K -/
  | ldVxK (x : RegIdx)
  /-- Fx15 LD DT,Vx -/
  | ldDtVx (x : RegIdx)
  /-- Fx18 LD ST,Vx -/
  | ldStVx (x : RegIdx)
  /-- Fx1E ADD I,Vx -/
  | addIVx (x : RegIdx)
  /-- Fx29 LD F,Vx -/
  | ldFVx (x : RegIdx)
  /-- Fx33 LD B,Vx -/
  | ldBVx (x : RegIdx)
  /-- Fx55 LD [I],Vx -/
  | ldMemVx (x : RegIdx)
  /-- Fx65 LD Vx,[I] -/
  | ldVxMem (x : RegIdx)
  deriving DecidableEq, Repr

end Sys2Proof
end

