-- ==== Sys2Proof/Decode.lean ====
section
/-! DEFINITION. Instruction words: the fields of spec/00_scope.md R19, the decoder of spec/30_encoding.md R93 to R99, and
after it the encoder, written from the patterns of R100, and the rows of spec/opcode_table.json. -/

namespace Sys2Proof

/-! ### Bytes and fields of a word (R18, R19) -/

/-- The word of two bytes, the first one most significant (`hi ++ lo` of R18; R65). -/
def wordOfBytes (hi lo : Byte) : Word := hi ++ lo
/-- The first byte of a word in memory, its high byte (R65). -/
def highByte (w : Word) : Byte := w.extractLsb' 8 8
/-- The second byte of a word in memory, its low byte (R65). -/
def lowByte (w : Word) : Byte := w.extractLsb' 0 8

/-- `class = w[15:12]`. -/
def fieldClass (w : Word) : Nibble := w.extractLsb' 12 4
/-- `x = w[11:8]`. -/
def fieldX (w : Word) : RegIdx := w.extractLsb' 8 4
/-- `y = w[7:4]`. -/
def fieldY (w : Word) : RegIdx := w.extractLsb' 4 4
/-- `n = w[3:0]`. -/
def fieldN (w : Word) : Nibble := w.extractLsb' 0 4
/-- `kk = w[7:0]`. -/
def fieldKk (w : Word) : Byte := w.extractLsb' 0 8
/-- `nnn = w[11:0]`. -/
def fieldNnn (w : Word) : Addr := w.extractLsb' 0 12

/-! ### Decoding -/

/-- What a word decodes to: exactly one instruction, or `UnknownOpcode` (R93). -/
inductive Decoded where
  | instr (i : Instr)
  /-- The word matches no pattern of its class: the fault `UnknownOpcode` of R300, which `step` takes. -/
  | unknownOpcode
  deriving DecidableEq, Repr

/-- Class 0x0: CLS and RET by all 16 bits, every other word is SYS (R94). -/
def decodeClass0 (w : Word) : Decoded :=
  if w = 0x00E0#16 then .instr .cls
  else if w = 0x00EE#16 then .instr .ret
  else .instr (.sysNnn (fieldNnn w))

/-- Class 0x8: by `n` (R96). -/
def decodeClass8 (w : Word) : Decoded :=
  match fieldN w with
  | 0x0#4 => .instr (.ldVxVy (fieldX w) (fieldY w))
  | 0x1#4 => .instr (.orVxVy (fieldX w) (fieldY w))
  | 0x2#4 => .instr (.andVxVy (fieldX w) (fieldY w))
  | 0x3#4 => .instr (.xorVxVy (fieldX w) (fieldY w))
  | 0x4#4 => .instr (.addVxVy (fieldX w) (fieldY w))
  | 0x5#4 => .instr (.subVxVy (fieldX w) (fieldY w))
  | 0x6#4 => .instr (.shrVxVy (fieldX w) (fieldY w))
  | 0x7#4 => .instr (.subnVxVy (fieldX w) (fieldY w))
  | 0xE#4 => .instr (.shlVxVy (fieldX w) (fieldY w))
  | _ => .unknownOpcode

/-- Class 0xB: by the configuration field `BNNN_MODE` (R99). -/
def decodeClassB (cfg : Config) (w : Word) : Decoded :=
  match cfg.bnnnMode with
  | .jumpV0 => .instr (.jpV0Nnn (fieldNnn w))
  | .unknown => .unknownOpcode

/-- Class 0xE: by `kk` (R97). -/
def decodeClassE (w : Word) : Decoded :=
  match fieldKk w with
  | 0x9E#8 => .instr (.skpVx (fieldX w))
  | 0xA1#8 => .instr (.sknpVx (fieldX w))
  | _ => .unknownOpcode

/-- Class 0xF: by `kk` (R98). -/
def decodeClassF (w : Word) : Decoded :=
  match fieldKk w with
  | 0x07#8 => .instr (.ldVxDt (fieldX w))
  | 0x0A#8 => .instr (.ldVxK (fieldX w))
  | 0x15#8 => .instr (.ldDtVx (fieldX w))
  | 0x18#8 => .instr (.ldStVx (fieldX w))
  | 0x1E#8 => .instr (.addIVx (fieldX w))
  | 0x29#8 => .instr (.ldFVx (fieldX w))
  | 0x33#8 => .instr (.ldBVx (fieldX w))
  | 0x55#8 => .instr (.ldMemVx (fieldX w))
  | 0x65#8 => .instr (.ldVxMem (fieldX w))
  | _ => .unknownOpcode

/-- The decode function of R93: it reads the word and `BNNN_MODE` and nothing else (R123). The sixteen class values are
all matched; the last arm is never reached. -/
def decode (cfg : Config) (w : Word) : Decoded :=
  match fieldClass w with
  | 0x0#4 => decodeClass0 w
  | 0x1#4 => .instr (.jpNnn (fieldNnn w))
  | 0x2#4 => .instr (.callNnn (fieldNnn w))
  | 0x3#4 => .instr (.seVxKk (fieldX w) (fieldKk w))
  | 0x4#4 => .instr (.sneVxKk (fieldX w) (fieldKk w))
  | 0x5#4 => .instr (.seVxVy (fieldX w) (fieldY w))
  | 0x6#4 => .instr (.ldVxKk (fieldX w) (fieldKk w))
  | 0x7#4 => .instr (.addVxKk (fieldX w) (fieldKk w))
  | 0x8#4 => decodeClass8 w
  | 0x9#4 => .instr (.sneVxVy (fieldX w) (fieldY w))
  | 0xA#4 => .instr (.ldINnn (fieldNnn w))
  | 0xB#4 => decodeClassB cfg w
  | 0xC#4 => .instr (.rndVxKk (fieldX w) (fieldKk w))
  | 0xD#4 => .instr (.drwVxVyN (fieldX w) (fieldY w) (fieldN w))
  | 0xE#4 => decodeClassE w
  | 0xF#4 => decodeClassF w
  | _ => .unknownOpcode

/-- Decoding a byte sequence: the instruction is its first two bytes, big-endian (R65, R90); the rest is handed back.
Fewer than two bytes hold no instruction. -/
def decodeBytes (cfg : Config) (bytes : List Byte) : Option (Decoded × List Byte) :=
  match bytes with
  | hi :: lo :: rest => some (decode cfg (wordOfBytes hi lo), rest)
  | _ => none

/-! ### Encoding (R91, R100) -/

/-- Format `A`: class and `nnn`. -/
def formatA (cls : Nibble) (nnn : Addr) : Word := cls ++ nnn
/-- Format `XK`: class, `x`, `kk`. -/
def formatXK (cls : Nibble) (x : RegIdx) (kk : Byte) : Word := cls ++ x ++ kk
/-- Formats `XY` and `XYN`: class, `x`, `y`, `n`. -/
def formatXYN (cls : Nibble) (x y : RegIdx) (n : Nibble) : Word := cls ++ x ++ y ++ n
/-- Format `X`: class, `x` and the sub-opcode byte. -/
def formatX (cls : Nibble) (x : RegIdx) (sub : Byte) : Word := cls ++ x ++ sub

/-- The word of an instruction. The ignored `n` of SE Vx,Vy and SNE Vx,Vy is written 0, as the spec's assembler does (R107). -/
def encode (i : Instr) : Word :=
  match i with
  | .cls => 0x00E0#16
  | .ret => 0x00EE#16
  | .sysNnn nnn => formatA 0x0#4 nnn
  | .jpNnn nnn => formatA 0x1#4 nnn
  | .callNnn nnn => formatA 0x2#4 nnn
  | .seVxKk x kk => formatXK 0x3#4 x kk
  | .sneVxKk x kk => formatXK 0x4#4 x kk
  | .seVxVy x y => formatXYN 0x5#4 x y 0x0#4
  | .ldVxKk x kk => formatXK 0x6#4 x kk
  | .addVxKk x kk => formatXK 0x7#4 x kk
  | .ldVxVy x y => formatXYN 0x8#4 x y 0x0#4
  | .orVxVy x y => formatXYN 0x8#4 x y 0x1#4
  | .andVxVy x y => formatXYN 0x8#4 x y 0x2#4
  | .xorVxVy x y => formatXYN 0x8#4 x y 0x3#4
  | .addVxVy x y => formatXYN 0x8#4 x y 0x4#4
  | .subVxVy x y => formatXYN 0x8#4 x y 0x5#4
  | .shrVxVy x y => formatXYN 0x8#4 x y 0x6#4
  | .subnVxVy x y => formatXYN 0x8#4 x y 0x7#4
  | .shlVxVy x y => formatXYN 0x8#4 x y 0xE#4
  | .sneVxVy x y => formatXYN 0x9#4 x y 0x0#4
  | .ldINnn nnn => formatA 0xA#4 nnn
  | .jpV0Nnn nnn => formatA 0xB#4 nnn
  | .rndVxKk x kk => formatXK 0xC#4 x kk
  | .drwVxVyN x y n => formatXYN 0xD#4 x y n
  | .skpVx x => formatX 0xE#4 x 0x9E#8
  | .sknpVx x => formatX 0xE#4 x 0xA1#8
  | .ldVxDt x => formatX 0xF#4 x 0x07#8
  | .ldVxK x => formatX 0xF#4 x 0x0A#8
  | .ldDtVx x => formatX 0xF#4 x 0x15#8
  | .ldStVx x => formatX 0xF#4 x 0x18#8
  | .addIVx x => formatX 0xF#4 x 0x1E#8
  | .ldFVx x => formatX 0xF#4 x 0x29#8
  | .ldBVx x => formatX 0xF#4 x 0x33#8
  | .ldMemVx x => formatX 0xF#4 x 0x55#8
  | .ldVxMem x => formatX 0xF#4 x 0x65#8

/-- The two bytes of an instruction as memory holds them, the high byte first (R65). -/
def encodeBytes (i : Instr) : List Byte := [highByte (encode i), lowByte (encode i)]

/-- The spelling of a word that `encode` writes: the ignored `n` of classes 0x5 and 0x9 cleared, every other word as it
stands (R95, R102). -/
def canonicalWord (w : Word) : Word :=
  if fieldClass w = 0x5#4 ∨ fieldClass w = 0x9#4 then w &&& 0xFFF0#16 else w

/-! ### The rows of spec/opcode_table.json -/

/-- The `mask` of an instruction's row. -/
def tableMask (i : Instr) : Word :=
  match i with
  | .cls | .ret => 0xFFFF#16
  | .sysNnn _ | .jpNnn _ | .callNnn _ | .seVxKk _ _ | .sneVxKk _ _ | .seVxVy _ _ | .ldVxKk _ _ | .addVxKk _ _
  | .sneVxVy _ _ | .ldINnn _ | .jpV0Nnn _ | .rndVxKk _ _ | .drwVxVyN _ _ _ => 0xF000#16
  | .ldVxVy _ _ | .orVxVy _ _ | .andVxVy _ _ | .xorVxVy _ _ | .addVxVy _ _ | .subVxVy _ _ | .shrVxVy _ _
  | .subnVxVy _ _ | .shlVxVy _ _ => 0xF00F#16
  | .skpVx _ | .sknpVx _ | .ldVxDt _ | .ldVxK _ | .ldDtVx _ | .ldStVx _ | .addIVx _ | .ldFVx _ | .ldBVx _
  | .ldMemVx _ | .ldVxMem _ => 0xF0FF#16

/-- The `match` of an instruction's row. -/
def tableMatch (i : Instr) : Word :=
  match i with
  | .cls => 0x00E0#16
  | .ret => 0x00EE#16
  | .sysNnn _ => 0x0000#16
  | .jpNnn _ => 0x1000#16
  | .callNnn _ => 0x2000#16
  | .seVxKk _ _ => 0x3000#16
  | .sneVxKk _ _ => 0x4000#16
  | .seVxVy _ _ => 0x5000#16
  | .ldVxKk _ _ => 0x6000#16
  | .addVxKk _ _ => 0x7000#16
  | .ldVxVy _ _ => 0x8000#16
  | .orVxVy _ _ => 0x8001#16
  | .andVxVy _ _ => 0x8002#16
  | .xorVxVy _ _ => 0x8003#16
  | .addVxVy _ _ => 0x8004#16
  | .subVxVy _ _ => 0x8005#16
  | .shrVxVy _ _ => 0x8006#16
  | .subnVxVy _ _ => 0x8007#16
  | .shlVxVy _ _ => 0x800E#16
  | .sneVxVy _ _ => 0x9000#16
  | .ldINnn _ => 0xA000#16
  | .jpV0Nnn _ => 0xB000#16
  | .rndVxKk _ _ => 0xC000#16
  | .drwVxVyN _ _ _ => 0xD000#16
  | .skpVx _ => 0xE09E#16
  | .sknpVx _ => 0xE0A1#16
  | .ldVxDt _ => 0xF007#16
  | .ldVxK _ => 0xF00A#16
  | .ldDtVx _ => 0xF015#16
  | .ldStVx _ => 0xF018#16
  | .addIVx _ => 0xF01E#16
  | .ldFVx _ => 0xF029#16
  | .ldBVx _ => 0xF033#16
  | .ldMemVx _ => 0xF055#16
  | .ldVxMem _ => 0xF065#16

/-! ### The host's view of the decoder -/

/-- The bytes of the instruction whose first `nbits` bits are `w` (bit 0 least significant in its one 16-bit word) and
whose other bits are 0, as memory holds them: high byte first (R65). -/
def tableBytes (nbits w : Nat) : List Byte :=
  let word : Word := BitVec.ofNat 16 (w % 2 ^ nbits)
  [highByte word, lowByte word]

/-- The instruction the decoder of the machine reads from those bytes; none where it refuses them. -/
def decodeTableWord (nbits w : Nat) : Option Instr :=
  match decodeBytes config (tableBytes nbits w) with
  | some (.instr i, _) => some i
  | _ => none

end Sys2Proof
end

