-- ==== Sys2Proof/Machine/Memory.lean ====
section
/-! DEFINITION. The byte array `Mem` (spec/10_state.md R20; spec/20_memory.md R60 to R75): what it holds after reset, and
reading and writing it. An address is an exact natural number, never wrapped (R63); whether an instruction may reach it is
checked before any access (Sys2Proof/Machine/Ops.lean). -/

namespace Sys2Proof.Machine

/-- The font of R67: the five rows of glyphs 0 to F. -/
def fontGlyphs : List (List Byte) :=
  [ [0xF0#8, 0x90#8, 0x90#8, 0x90#8, 0xF0#8],
    [0x20#8, 0x60#8, 0x20#8, 0x20#8, 0x70#8],
    [0xF0#8, 0x10#8, 0xF0#8, 0x80#8, 0xF0#8],
    [0xF0#8, 0x10#8, 0xF0#8, 0x10#8, 0xF0#8] ]
  ++
  [ [0x90#8, 0x90#8, 0xF0#8, 0x10#8, 0x10#8],
    [0xF0#8, 0x80#8, 0xF0#8, 0x10#8, 0xF0#8],
    [0xF0#8, 0x80#8, 0xF0#8, 0x90#8, 0xF0#8],
    [0xF0#8, 0x10#8, 0x20#8, 0x40#8, 0x40#8] ]
  ++
  [ [0xF0#8, 0x90#8, 0xF0#8, 0x90#8, 0xF0#8],
    [0xF0#8, 0x90#8, 0xF0#8, 0x10#8, 0xF0#8],
    [0xF0#8, 0x90#8, 0xF0#8, 0x90#8, 0x90#8],
    [0xE0#8, 0x90#8, 0xE0#8, 0x90#8, 0xE0#8] ]
  ++
  [ [0xF0#8, 0x80#8, 0x80#8, 0x80#8, 0xF0#8],
    [0xE0#8, 0x90#8, 0x90#8, 0x90#8, 0xE0#8],
    [0xF0#8, 0x80#8, 0xF0#8, 0x80#8, 0xF0#8],
    [0xF0#8, 0x80#8, 0xF0#8, 0x80#8, 0x80#8] ]

/-- Row `r` of glyph `d` (R67); 0 where there is none. -/
def fontRow (d r : Nat) : Byte := (fontGlyphs.getD d []).getD r 0x00#8

/-- What `Mem[a]` holds after reset, and so what an address that memory does not list reads as: the font at `FONT_BASE`,
0 everywhere else (R20, R67). -/
def resetByte (a : Nat) : Byte :=
  if fontBase ≤ a then fontRow ((a - fontBase) / fontGlyphBytes) ((a - fontBase) % fontGlyphBytes) else 0x00#8

/-- Memory: the bytes that differ from their reset value, addresses strictly rising. -/
abbrev Memory := List Host.Cell

/-- `Mem[a]`. -/
def Memory.read (m : Memory) (a : Nat) : Byte :=
  match m with
  | [] => resetByte a
  | (a', b') :: rest => if a = a' then b' else Memory.read rest a

/-- The entry for `a` gone, so that `a` reads as its reset value. -/
def Memory.drop (m : Memory) (a : Nat) : Memory := m.filter fun c => c.1 != a

/-- The entry for `a` set, at its place in the rising order. -/
def Memory.put (m : Memory) (a : Nat) (b : Byte) : Memory :=
  match m with
  | [] => [(a, b)]
  | (a', b') :: rest =>
    if a < a' then (a, b) :: (a', b') :: rest
    else if a = a' then (a, b) :: rest
    else (a', b') :: Memory.put rest a b

/-- `Mem[a] <- b`. The list stays in its one form: writing the reset value of an address leaves it unlisted. -/
def Memory.write (m : Memory) (a : Nat) (b : Byte) : Memory := if b = resetByte a then m.drop a else m.put a b

/-- The `n` bytes at `a`, `a + 1`, ... in rising order. -/
def Memory.readBytes (m : Memory) (a n : Nat) : List Byte :=
  match n with
  | 0 => []
  | k + 1 => m.read a :: Memory.readBytes m (a + 1) k

/-- The bytes written at `a`, `a + 1`, ... in rising order. -/
def Memory.writeBytes (m : Memory) (a : Nat) (bytes : List Byte) : Memory :=
  match bytes with
  | [] => m
  | b :: rest => Memory.writeBytes (m.write a b) (a + 1) rest

/-- The list form of memory from address `lo` up: rising addresses below `size`, no entry equal to its reset value. -/
def Memory.wfFrom (size lo : Nat) (m : Memory) : Bool :=
  match m with
  | [] => true
  | (a, b) :: rest => decide (lo ≤ a) && decide (a < size) && (b != resetByte a) && Memory.wfFrom size (a + 1) rest

/-- The canonical form in a memory of `size` bytes. -/
def Memory.wfIn (size : Nat) (m : Memory) : Bool := Memory.wfFrom size 0 m

/-- The canonical form in this machine's memory. -/
def Memory.wf (m : Memory) : Bool := m.wfIn config.memSize

end Sys2Proof.Machine
end

