-- ==== Sys2Proof/Machine/State.lean ====
section
/-! DEFINITION. The state of one machine instance, item for item the summary table of spec/10_state.md, its reset value, and
the two ways a meaning could stop without a next state. -/

namespace Sys2Proof.Machine

/-- `RunState` (R37, R125). -/
inductive RunState where
  | running
  | waitingForKey
  | halted
  deriving DecidableEq, Repr

/-- The four faults of the engine (R300). -/
inductive FaultKind where
  | unknownOpcode
  | stackOverflow
  | stackUnderflow
  | memoryOutOfBounds
  deriving DecidableEq, Repr

/-- The code R300 gives each fault; a label only. -/
def FaultKind.code (k : FaultKind) : Nat :=
  match k with
  | .unknownOpcode => 1
  | .stackOverflow => 2
  | .stackUnderflow => 3
  | .memoryOutOfBounds => 4

/-- The record of `Diag` (R40). -/
structure Diag where
  /-- The fault (R300). -/
  kind : FaultKind
  /-- The word fetched; 0 for a fetch fault. -/
  opcode : Word
  /-- The address of the faulting instruction. -/
  pc : Word
  /-- `Cycles` after the faulting step's increment. -/
  cycles : Nat
  deriving DecidableEq, Repr

/-- The display: 32 rows of 64 cells, `true` = lit (R34). -/
abbrev Display := Vector (Vector Bool 64) 32

/-- The state (R20 to R40). -/
structure State where
  /-- `Mem` (R20). -/
  mem : Memory
  /-- `V[0]` to `V[15]`; `V[15]` is `VF` (R22, R23). -/
  v : Vector Byte 16
  /-- `I` (R26). -/
  i : Word
  /-- `PC` (R27). -/
  pc : Word
  /-- `Stack[0]` to `Stack[15]` (R29). -/
  stack : Vector Word 16
  /-- `SP`, the number of entries in use, 0 to 16 (R30). -/
  sp : Fin 17
  /-- `DT` (R32). -/
  dt : Byte
  /-- `ST` (R33). -/
  st : Byte
  /-- `Disp` (R34). -/
  disp : Display
  /-- `Dirty` (R35). -/
  dirty : Bool
  /-- `Key`, `true` = pressed (R36). -/
  key : Vector Bool 16
  /-- `RunState` (R37). -/
  runState : RunState
  /-- `WaitX` (R38). -/
  waitX : RegIdx
  /-- `Cycles` (R39). -/
  cycles : Nat
  /-- `Diag` (R40). -/
  diag : Option Diag
  /-- The model's own field: how many oracle bytes RND has taken (R17, R214). DESIGN CHOICE, notes/assumptions/2.md. -/
  draws : Nat
  deriving DecidableEq, Repr

/-- The state after reset (R340): every item at the reset value its rule in spec/10_state.md states. Memory lists nothing,
because what an unlisted address reads as IS its reset value. -/
def State.reset : State where
  mem := []
  v := Vector.replicate 16 0x00#8
  i := 0x0000#16
  pc := programBase
  stack := Vector.replicate 16 0x0000#16
  sp := 0
  dt := 0x00#8
  st := 0x00#8
  disp := Vector.replicate 32 (Vector.replicate 64 false)
  dirty := true
  key := Vector.replicate 16 false
  runState := .running
  waitX := 0x0#4
  cycles := 0
  diag := none
  draws := 0

/-- A stop of the machine that the spec describes by no state. THERE IS NONE: every fault of R300 is precise and leaves the
engine `Halted` with `Diag` written (R305), which is a next state. So nothing raises one, and that no step ever ends in one
is an obligation. Safe. -/
inductive Fault where
  deriving DecidableEq, Repr

/-- An instruction the model gives no meaning. -/
inductive Refusal where
  /-- Raised only by an arm of `exec` for an instruction without a meaning yet; no arm is left that does. Safe: a run that met
  it would stop. -/
  | notModelled (mnemonic : String)
  deriving DecidableEq, Repr

end Sys2Proof.Machine
end

