-- ==== Sys2Proof/Machine/Ops.lean ====
section
/-! DEFINITION. The operations every meaning is written in: registers, the program counter, the stack, memory, the display
flag, the run state; taking a fault; fetching; and one step around a given execution of instructions. -/

namespace Sys2Proof.Machine

/-- What a meaning answers. -/
abbrev Answer := Host.Outcome State Fault Refusal

/-! ### Registers (R22 to R28) -/

/-- `V[x]`. -/
def State.reg (s : State) (x : RegIdx) : Byte := s.v[x.toNat]'x.isLt

/-- `V[x] <- b`. -/
def State.setReg (s : State) (x : RegIdx) (b : Byte) : State := { s with v := s.v.set x.toNat b x.isLt }

/-- The index of `VF` (R23). -/
def vf : RegIdx := 0xF#4

/-- `V[x] <- r`, then `V[15] <- flag`: the flag is written last and stays when `x = 15` (R24). -/
def State.setRegAndFlag (s : State) (x : RegIdx) (r flag : Byte) : State := (s.setReg x r).setReg vf flag

/-- Registers `V[k]`, `V[k + 1]`, ... of a register file loaded in rising order with the bytes given (R235). -/
def loadRegs (v : Vector Byte 16) (k : Nat) (bytes : List Byte) : Vector Byte 16 :=
  match bytes with
  | [] => v
  | b :: rest => loadRegs (v.setIfInBounds k b) (k + 1) rest

/-- The whole register file replaced. -/
def State.setRegs (s : State) (v : Vector Byte 16) : State := { s with v := v }

/-- `I <- a`. -/
def State.setI (s : State) (a : Word) : State := { s with i := a }

/-- `PC <- a`. -/
def State.setPc (s : State) (a : Word) : State := { s with pc := a }

/-- `PC <- (PC + 2) mod 2^16`, the default advance (R127). -/
def State.advance (s : State) : State := s.setPc (s.pc + 2#16)

/-- `PC <- (PC + 4) mod 2^16` when the condition holds, else `PC + 2` (R127, R179). -/
def State.skipIf (s : State) (c : Bool) : State := s.setPc (s.pc + if c then 4#16 else 2#16)

/-! ### Stack (R29, R30) -/

/-- A push: `Stack[SP] <- a; SP <- SP + 1`; none when the stack is full. -/
def State.push (s : State) (a : Word) : Option State :=
  if h : s.sp.val < 16 then
    some { s with stack := s.stack.set s.sp.val a h, sp := ⟨s.sp.val + 1, by omega⟩ }
  else none

/-- A pop: `SP <- SP - 1`, and the entry at the new `SP`, which keeps its value; none when the stack is empty. -/
def State.pop (s : State) : Option (Word × State) :=
  if h : s.sp.val = 0 then none
  else some (s.stack[s.sp.val - 1]'(by omega), { s with sp := ⟨s.sp.val - 1, by omega⟩ })

/-! ### Memory (R62, R63, R68) -/

/-- Every address of the `count` bytes from `first` is below `MEM_SIZE`, computed exactly (R63). An access to no byte
touches no address, whatever `first` is (R157). -/
def inBounds (cfg : Config) (first count : Nat) : Bool := decide (count = 0) || decide (first + count ≤ cfg.memSize)

/-- The bytes written at `a`, `a + 1`, ... -/
def State.storeBytes (s : State) (a : Nat) (bytes : List Byte) : State := { s with mem := s.mem.writeBytes a bytes }

/-! ### Timers, display, run state, oracle -/

/-- `DT <- b` (R32). -/
def State.setDt (s : State) (b : Byte) : State := { s with dt := b }

/-- `ST <- b` (R33). -/
def State.setSt (s : State) (b : Byte) : State := { s with st := b }

/-- The display replaced by a CLS or a DRW, which sets `Dirty` whatever changed (R151). -/
def State.paint (s : State) (d : Display) : State := { s with disp := d, dirty := true }

/-- `WaitX <- x; RunState <- WaitingForKey` (R255). -/
def State.waitForKey (s : State) (x : RegIdx) : State := { s with waitX := x, runState := .waitingForKey }

/-- `RunState <- Running` (R124). -/
def State.resume (s : State) : State := { s with runState := .running }

/-- `Cycles <- Cycles + 1` (R39, R120). -/
def State.countCycle (s : State) : State := { s with cycles := s.cycles + 1 }

/-- `Rand()` (R17): the oracle byte of this draw. -/
def State.rand (s : State) : Byte := Config.randomByte s.draws

/-- The draw is consumed (R214), so that the next RND takes another. -/
def State.countDraw (s : State) : State := { s with draws := s.draws + 1 }

/-! ### Taking a fault (R305)

The core's one exception entry: no vector, no saved state, no mode. There is no return from it: only `reset` leaves `Halted`
(R309), which is an operation of the host (Sys2Proof/Machine/Interface.lean). -/

/-- `raise kind(opcode, pc = PC)`: the engine halts with the diagnostics written; `PC` and every other item keep their value. -/
def State.takeFault (s : State) (kind : FaultKind) (opcode : Word) : State :=
  { s with
    runState := .halted
    diag := some { kind := kind, opcode := opcode, pc := s.pc, cycles := s.cycles } }

/-! ### Fetch, decode, one step (R120 to R124) -/

/-- Fetch: the big-endian word at `PC`, none when `PC + 1 ≥ MEM_SIZE` (R64, R65, R122). -/
def State.fetch (cfg : Config) (s : State) : Option Word :=
  if s.pc.toNat + 1 < cfg.memSize then
    some (wordOfBytes (s.mem.read s.pc.toNat) (s.mem.read (s.pc.toNat + 1)))
  else none

/-- Fetch and decode, in the order of R308: the instruction to execute, or the fault with its opcode. -/
def State.fetchInstr (cfg : Config) (s : State) : Except (FaultKind × Word) Instr :=
  match s.fetch cfg with
  | none => .error (.memoryOutOfBounds, 0x0000#16)
  | some w =>
    match decode cfg w with
    | .unknownOpcode => .error (.unknownOpcode, w)
    | .instr i => .ok i

/-- `min { k | Key[k] }`, none when no key is pressed (R124, R255). -/
def lowestPressed (key : Vector Bool 16) : Option (Fin 16) := (List.finRange 16).find? fun k => key[k.val]

/-- The byte a key index is written as. -/
def keyByte (k : Fin 16) : Byte := BitVec.ofNat 8 k.val

/-- The wait poll (R124). -/
def State.poll (s : State) : State :=
  match lowestPressed s.key with
  | some k => (s.setReg s.waitX (keyByte k)).advance.resume
  | none => s

/-- `step` (R120) around a given execution of instructions. -/
def stepWith (cfg : Config) (execute : Instr → State → Answer) (s : State) : Answer :=
  match s.runState with
  | .halted => .next s
  | .waitingForKey => .next s.countCycle.poll
  | .running =>
    match s.countCycle.fetchInstr cfg with
    | .error (kind, opcode) => .next (s.countCycle.takeFault kind opcode)
    | .ok i => execute i s.countCycle

end Sys2Proof.Machine
end

