-- ==== Sys2Proof/Machine/Operands.lean ====
section
/-! DEFINITION. The operand forms of spec/30_encoding.md R92 and spec/44_index_memory.md R236. -/

namespace Sys2Proof.Machine

/-- `zext_16(nnn)`, the absolute address form. -/
def zextAddr (nnn : Addr) : Word := nnn.setWidth 16

/-- `zext_16(v)` of a register's byte. -/
def zextByte (b : Byte) : Word := b.setWidth 16

/-- The operand 8xy6 and 8xyE shift (R208, R210). -/
def shiftOperand (cfg : Config) (x y : RegIdx) (s : State) : Byte :=
  match cfg.shiftSource with
  | .vx => s.reg x
  | .vy => s.reg y

/-- `k < 16 and Key[k]` for the key a register's value names; a value past 15 names no key (R253, R254, R256). -/
def keyPressed (key : Vector Bool 16) (k : Byte) : Bool := if h : k.toNat < 16 then key[k.toNat] else false

/-- How many registers `V[0]` to `V[x]` are. -/
def blockLength (x : RegIdx) : Nat := x.toNat + 1

/-- `V[0]` to `V[x]`, in rising order: the bytes of a block store (R234). -/
def blockRegs (s : State) (x : RegIdx) : List Byte := s.v.toList.take (blockLength x)

/-- The three decimal digits of a byte: hundreds, tens, units (R233). -/
def bcdDigits (b : Byte) : List Byte :=
  [BitVec.ofNat 8 (b.toNat / 100), BitVec.ofNat 8 (b.toNat / 10 % 10), BitVec.ofNat 8 (b.toNat % 10)]

/-- `I` after a block transfer of `V[0]` to `V[x]`: past the block when `INDEX_ADVANCE`, else as it was (R234, R235). -/
def indexAfterBlock (cfg : Config) (x : RegIdx) (s : State) : Word :=
  if cfg.indexAdvance then s.i + BitVec.ofNat 16 (blockLength x) else s.i

/-- `t = I + V[x]` of Fx1E, an unbounded integer (R231). -/
def indexSum (s : State) (x : RegIdx) : Nat := s.i.toNat + (s.reg x).toNat

/-- The address of the font glyph a byte names, the byte not masked (R232). -/
def glyphAddress (b : Byte) : Word := BitVec.ofNat 16 (fontBase + fontGlyphBytes * b.toNat)

end Sys2Proof.Machine
end

