-- ==== Sys2Proof/Machine/Arithmetic.lean ====
section
/-! DEFINITION. Loads of registers, arithmetic, logic and RND (spec/43_arithmetic_logic.md R200 to R215). Every operand is
read from the state at the start of the instruction. -/

namespace Sys2Proof.Machine

/-- The end of 8xy1, 8xy2 and 8xy3: the result, then `VF <- 0` when `LOGIC_RESETS_VF` (R203 to R205). -/
def logicResult (cfg : Config) (x : RegIdx) (r : Byte) (s : State) : Answer :=
  if cfg.logicResetsVF then .next (s.setRegAndFlag x r 0x00#8).advance else .next (s.setReg x r).advance

/-- The end of 8xy4 to 8xyE: the result, then the flag (R24, R206 to R211). -/
def flagResult (x : RegIdx) (r flag : Byte) (s : State) : Answer := .next (s.setRegAndFlag x r flag).advance

/-- LD Vx,kk (R200). -/
def execLdVxKk (x : RegIdx) (kk : Byte) (s : State) : Answer := .next (s.setReg x kk).advance

/-- ADD Vx,kk (R201): no flag. -/
def execAddVxKk (x : RegIdx) (kk : Byte) (s : State) : Answer := .next (s.setReg x (s.reg x + kk)).advance

/-- LD Vx,Vy (R202). -/
def execLdVxVy (x y : RegIdx) (s : State) : Answer := .next (s.setReg x (s.reg y)).advance

/-- OR Vx,Vy under a configuration (R203). -/
def orVxVyIn (cfg : Config) (x y : RegIdx) (s : State) : Answer := logicResult cfg x (s.reg x ||| s.reg y) s

/-- OR Vx,Vy. -/
def execOrVxVy (x y : RegIdx) (s : State) : Answer := orVxVyIn config x y s

/-- AND Vx,Vy under a configuration (R204). -/
def andVxVyIn (cfg : Config) (x y : RegIdx) (s : State) : Answer := logicResult cfg x (s.reg x &&& s.reg y) s

/-- AND Vx,Vy. -/
def execAndVxVy (x y : RegIdx) (s : State) : Answer := andVxVyIn config x y s

/-- XOR Vx,Vy under a configuration (R205). -/
def xorVxVyIn (cfg : Config) (x y : RegIdx) (s : State) : Answer := logicResult cfg x (s.reg x ^^^ s.reg y) s

/-- XOR Vx,Vy. -/
def execXorVxVy (x y : RegIdx) (s : State) : Answer := xorVxVyIn config x y s

/-- ADD Vx,Vy (R206). -/
def execAddVxVy (x y : RegIdx) (s : State) : Answer :=
  flagResult x (s.reg x + s.reg y) (carryFlag (s.reg x) (s.reg y)) s

/-- SUB Vx,Vy (R207). -/
def execSubVxVy (x y : RegIdx) (s : State) : Answer :=
  flagResult x (s.reg x - s.reg y) (notBorrowFlag (s.reg x) (s.reg y)) s

/-- SHR Vx,Vy under a configuration (R208). -/
def shrVxVyIn (cfg : Config) (x y : RegIdx) (s : State) : Answer :=
  flagResult x (shiftOperand cfg x y s >>> 1) (shiftedOutRight (shiftOperand cfg x y s)) s

/-- SHR Vx,Vy. -/
def execShrVxVy (x y : RegIdx) (s : State) : Answer := shrVxVyIn config x y s

/-- SUBN Vx,Vy (R209). -/
def execSubnVxVy (x y : RegIdx) (s : State) : Answer :=
  flagResult x (s.reg y - s.reg x) (notBorrowFlag (s.reg y) (s.reg x)) s

/-- SHL Vx,Vy under a configuration (R210). -/
def shlVxVyIn (cfg : Config) (x y : RegIdx) (s : State) : Answer :=
  flagResult x (shiftOperand cfg x y s <<< 1) (shiftedOutLeft (shiftOperand cfg x y s)) s

/-- SHL Vx,Vy. -/
def execShlVxVy (x y : RegIdx) (s : State) : Answer := shlVxVyIn config x y s

/-- RND Vx,kk (R214): the draw is consumed whatever `kk` is. -/
def execRndVxKk (x : RegIdx) (kk : Byte) (s : State) : Answer := .next (s.setReg x (s.rand &&& kk)).countDraw.advance

end Sys2Proof.Machine
end

