-- ==== Sys2Proof/Machine/ControlFlow.lean ====
section
/-! DEFINITION. SYS, RET, JP, CALL, JP V0 and the register skips (spec/42_control_flow.md R170 to R180). -/

namespace Sys2Proof.Machine

/-- SYS nnn, a no-op (R170). -/
def execSysNnn (_nnn : Addr) (s : State) : Answer := .next s.advance

/-- JP nnn (R171). -/
def execJpNnn (nnn : Addr) (s : State) : Answer := .next (s.setPc (zextAddr nnn))

/-- RET (R172): the popped address plus 2. -/
def execRet (s : State) : Answer :=
  match s.pop with
  | some (a, t) => .next (t.setPc (a + 2#16))
  | none => .next (s.takeFault .stackUnderflow (encode .ret))

/-- CALL nnn (R173): the address pushed is the CALL's own. -/
def execCallNnn (nnn : Addr) (s : State) : Answer :=
  match s.push s.pc with
  | some t => .next (t.setPc (zextAddr nnn))
  | none => .next (s.takeFault .stackOverflow (encode (.callNnn nnn)))

/-- JP V0,nnn (R174): the offset register is always `V[0]`. -/
def execJpV0Nnn (nnn : Addr) (s : State) : Answer := .next (s.setPc (zextAddr nnn + zextByte (s.reg 0x0#4)))

/-- SE Vx,kk (R175). -/
def execSeVxKk (x : RegIdx) (kk : Byte) (s : State) : Answer := .next (s.skipIf (s.reg x == kk))

/-- SNE Vx,kk (R176). -/
def execSneVxKk (x : RegIdx) (kk : Byte) (s : State) : Answer := .next (s.skipIf (s.reg x != kk))

/-- SE Vx,Vy (R177). -/
def execSeVxVy (x y : RegIdx) (s : State) : Answer := .next (s.skipIf (s.reg x == s.reg y))

/-- SNE Vx,Vy (R178). -/
def execSneVxVy (x y : RegIdx) (s : State) : Answer := .next (s.skipIf (s.reg x != s.reg y))

end Sys2Proof.Machine
end

