-- ==== Sys2Proof/Machine/Display.lean ====
section
/-! DEFINITION. The display buffer controller: CLS and DRW (spec/41_display.md R150 to R158). -/

namespace Sys2Proof.Machine

/-- A cell of the display: row and column. -/
abbrev Cell := Fin 32 × Fin 64

/-- `Disp[r][c]` (R34). -/
def Display.lit (d : Display) (p : Cell) : Bool := d[p.1.val][p.2.val]

/-- `Disp[r][c] <- not Disp[r][c]`. -/
def Display.toggle (d : Display) (p : Cell) : Display :=
  d.set p.1.val (d[p.1.val].set p.2.val (!d[p.1.val][p.2.val]))

/-- Every cell false. -/
def Display.blank : Display := Vector.replicate 32 (Vector.replicate 64 false)

/-- Where a sprite cell falls under the edge policy, none when it is dropped (`place` of R155). -/
def place (edge : DrawEdge) (row col : Nat) : Option Cell :=
  match edge with
  | .wrap => some (⟨row % 32, Nat.mod_lt _ (by decide)⟩, ⟨col % 64, Nat.mod_lt _ (by decide)⟩)
  | .clip => if h : row < 32 ∧ col < 64 then some (⟨row, h.1⟩, ⟨col, h.2⟩) else none

/-- The cells one sprite row toggles when it is drawn at display row `row` from column `cx`: bit 7 at `cx`, down to bit 0 at
`cx + 7` (R153). -/
def rowCells (edge : DrawEdge) (row cx : Nat) (sprite : Byte) : List Cell :=
  (List.range 8).filterMap fun b => if sprite.getLsbD (7 - b) then place edge row (cx + b) else none

/-- The cells a sprite toggles, in the order of R152's loops; its rows are drawn at `cy`, `cy + 1`, ... -/
def spriteCells (edge : DrawEdge) (cy cx : Nat) (rows : List Byte) : List Cell :=
  match rows with
  | [] => []
  | row :: rest => rowCells edge cy cx row ++ spriteCells edge (cy + 1) cx rest

/-- One toggled cell: the hit flag is set when the cell was lit (R152, R154). -/
def drawCell (acc : Display × Bool) (p : Cell) : Display × Bool := (acc.1.toggle p, acc.2 || acc.1.lit p)

/-- The draw: the display after it, and whether some lit cell was turned off. -/
def drawCells (d : Display) (cells : List Cell) : Display × Bool := cells.foldl drawCell (d, false)

/-- The row and column a sprite starts at; both wrap under either policy (R155). -/
def drawOrigin (s : State) (x y : RegIdx) : Nat × Nat := ((s.reg y).toNat % 32, (s.reg x).toNat % 64)

/-- The sprite of DRW: the `n` bytes at `I` (R153). -/
def spriteBytes (s : State) (n : Nibble) : List Byte := s.mem.readBytes s.i.toNat n.toNat

/-- The draw of DRW Vx,Vy,n in a state: `V[x]` and `V[y]` are read before `VF` is written (R156). -/
def drawSprite (cfg : Config) (s : State) (x y : RegIdx) (n : Nibble) : Display × Bool :=
  drawCells s.disp (spriteCells cfg.drawEdge (drawOrigin s x y).1 (drawOrigin s x y).2 (spriteBytes s n))

/-- CLS (R150, R151). -/
def execCls (s : State) : Answer := .next (s.paint Display.blank).advance

/-- DRW Vx,Vy,n under a configuration (R152 to R157). -/
def drwVxVyNIn (cfg : Config) (x y : RegIdx) (n : Nibble) (s : State) : Answer :=
  if inBounds cfg s.i.toNat n.toNat then
    .next ((s.setReg vf (collisionFlag (drawSprite cfg s x y n).2)).paint (drawSprite cfg s x y n).1).advance
  else .next (s.takeFault .memoryOutOfBounds (encode (.drwVxVyN x y n)))

/-- DRW Vx,Vy,n. -/
def execDrwVxVyN (x y : RegIdx) (n : Nibble) (s : State) : Answer := drwVxVyNIn config x y n s

end Sys2Proof.Machine
end

