-- ==== Sys2Proof/Machine/IndexMemory.lean ====
section
/-! DEFINITION. The index register and the memory transfers (spec/44_index_memory.md R230 to R236). A transfer checks every
address before its first write (spec/20_memory.md R63). -/

namespace Sys2Proof.Machine

/-- LD I,nnn (R230). -/
def execLdINnn (nnn : Addr) (s : State) : Answer := .next (s.setI (zextAddr nnn)).advance

/-- ADD I,Vx (R231): `I` first, then the boundary flag; the sum uses the old `VF` when `x = 15`. -/
def execAddIVx (x : RegIdx) (s : State) : Answer :=
  .next ((s.setI (BitVec.ofNat 16 (indexSum s x))).setReg vf (boundaryFlag (indexSum s x))).advance

/-- LD F,Vx (R232). -/
def execLdFVx (x : RegIdx) (s : State) : Answer := .next (s.setI (glyphAddress (s.reg x))).advance

/-- LD B,Vx under a configuration (R233). -/
def ldBVxIn (cfg : Config) (x : RegIdx) (s : State) : Answer :=
  if inBounds cfg s.i.toNat 3 then .next (s.storeBytes s.i.toNat (bcdDigits (s.reg x))).advance
  else .next (s.takeFault .memoryOutOfBounds (encode (.ldBVx x)))

/-- LD B,Vx. -/
def execLdBVx (x : RegIdx) (s : State) : Answer := ldBVxIn config x s

/-- LD [I],Vx under a configuration (R234). -/
def ldMemVxIn (cfg : Config) (x : RegIdx) (s : State) : Answer :=
  if inBounds cfg s.i.toNat (blockLength x) then
    .next ((s.storeBytes s.i.toNat (blockRegs s x)).setI (indexAfterBlock cfg x s)).advance
  else .next (s.takeFault .memoryOutOfBounds (encode (.ldMemVx x)))

/-- LD [I],Vx. -/
def execLdMemVx (x : RegIdx) (s : State) : Answer := ldMemVxIn config x s

/-- LD Vx,[I] under a configuration (R235). -/
def ldVxMemIn (cfg : Config) (x : RegIdx) (s : State) : Answer :=
  if inBounds cfg s.i.toNat (blockLength x) then
    .next
      ((s.setRegs (loadRegs s.v 0 (s.mem.readBytes s.i.toNat (blockLength x)))).setI (indexAfterBlock cfg x s)).advance
  else .next (s.takeFault .memoryOutOfBounds (encode (.ldVxMem x)))

/-- LD Vx,[I]. -/
def execLdVxMem (x : RegIdx) (s : State) : Answer := ldVxMemIn config x s

end Sys2Proof.Machine
end

