-- ==== Sys2Proof/Machine/TimersKeys.lean ====
section
/-! DEFINITION. The timer moves, the key skips and the wait for a key (spec/45_timers_keys.md R250 to R258). -/

namespace Sys2Proof.Machine

/-- LD Vx,DT (R250). -/
def execLdVxDt (x : RegIdx) (s : State) : Answer := .next (s.setReg x s.dt).advance

/-- LD DT,Vx (R251). -/
def execLdDtVx (x : RegIdx) (s : State) : Answer := .next (s.setDt (s.reg x)).advance

/-- LD ST,Vx (R252). -/
def execLdStVx (x : RegIdx) (s : State) : Answer := .next (s.setSt (s.reg x)).advance

/-- SKP Vx (R253, R256). -/
def execSkpVx (x : RegIdx) (s : State) : Answer := .next (s.skipIf (keyPressed s.key (s.reg x)))

/-- SKNP Vx (R254, R256). -/
def execSknpVx (x : RegIdx) (s : State) : Answer := .next (s.skipIf (!keyPressed s.key (s.reg x)))

/-- LD Vx,K (R255): a held key completes it at once (R258); with none held the engine waits, `PC` unchanged. -/
def execLdVxK (x : RegIdx) (s : State) : Answer :=
  match lowestPressed s.key with
  | some k => .next (s.setReg x (keyByte k)).advance
  | none => .next (s.waitForKey x)

end Sys2Proof.Machine
end

