-- ==== Sys2Proof/Machine/Step.lean ====
section
/-! DEFINITION. `step` (spec/40_engine_cycle.md R120), and placing an instruction where the next step fetches. -/

namespace Sys2Proof.Machine

/-- One step: exactly one instruction, or one poll of the wait for a key, or nothing when halted (R120, R121, R124). -/
def step (s : State) : Host.Outcome State Fault Refusal := stepWith config exec s

/-- `s` with the instruction whose first `nbits` bits are `w` stored at `PC`, high byte first, where the next step fetches it.
A fetch happens only in `Running` (R122), so the run state is `Running`; nothing else changes. Where `PC` lets no fetch happen
(R64) there is no such place and the state stays as it is. notes/assumptions/6.md says how a program comes to run. -/
def State.withFetchWord (s : State) (nbits w : Nat) : State :=
  if s.pc.toNat + 1 < config.memSize then (s.storeBytes s.pc.toNat (tableBytes nbits w)).resume else s

end Sys2Proof.Machine
end

