-- ==== Sys2Proof/Machine/Configured.lean ====
section
/-! DEFINITION. The same machine at every configuration of spec/00_scope.md R9 and R13 to R15: the meanings that a
configuration field changes are taken at `cfg`, every other one is the one meaning of the instruction. The machine of
Sys2Proof/Machine/Core.lean is this one at `config` (Sys2Proof/Laws/Step.lean, `exec_eq_execIn`, `step_eq_stepIn`). -/

namespace Sys2Proof.Machine

/-- `execute` at the configuration `cfg`. -/
def execIn (cfg : Config) (i : Instr) (s : State) : Answer :=
  match i with
  | .cls => execCls s
  | .ret => execRet s
  | .sysNnn nnn => execSysNnn nnn s
  | .jpNnn nnn => execJpNnn nnn s
  | .callNnn nnn => execCallNnn nnn s
  | .seVxKk x kk => execSeVxKk x kk s
  | .sneVxKk x kk => execSneVxKk x kk s
  | .seVxVy x y => execSeVxVy x y s
  | .ldVxKk x kk => execLdVxKk x kk s
  | .addVxKk x kk => execAddVxKk x kk s
  | .ldVxVy x y => execLdVxVy x y s
  | .orVxVy x y => orVxVyIn cfg x y s
  | .andVxVy x y => andVxVyIn cfg x y s
  | .xorVxVy x y => xorVxVyIn cfg x y s
  | .addVxVy x y => execAddVxVy x y s
  | .subVxVy x y => execSubVxVy x y s
  | .shrVxVy x y => shrVxVyIn cfg x y s
  | .subnVxVy x y => execSubnVxVy x y s
  | .shlVxVy x y => shlVxVyIn cfg x y s
  | .sneVxVy x y => execSneVxVy x y s
  | .ldINnn nnn => execLdINnn nnn s
  | .jpV0Nnn nnn => execJpV0Nnn nnn s
  | .rndVxKk x kk => execRndVxKk x kk s
  | .drwVxVyN x y n => drwVxVyNIn cfg x y n s
  | .skpVx x => execSkpVx x s
  | .sknpVx x => execSknpVx x s
  | .ldVxDt x => execLdVxDt x s
  | .ldVxK x => execLdVxK x s
  | .ldDtVx x => execLdDtVx x s
  | .ldStVx x => execLdStVx x s
  | .addIVx x => execAddIVx x s
  | .ldFVx x => execLdFVx x s
  | .ldBVx x => ldBVxIn cfg x s
  | .ldMemVx x => ldMemVxIn cfg x s
  | .ldVxMem x => ldVxMemIn cfg x s

/-- `step` at the configuration `cfg` (R120). -/
def stepIn (cfg : Config) (s : State) : Answer := stepWith cfg (execIn cfg) s

end Sys2Proof.Machine
end

