-- ==== Sys2Proof/Machine/Interface.lean ====
section
/-! DEFINITION. The interface operations of the block (spec/10_state.md R45): everything the host can do to the machine, each
one atomic transaction on the whole state (R46). -/

namespace Sys2Proof.Machine

/-- What `load` reports (R346, R307). -/
inductive LoadResult where
  | ok
  | loadOutOfBounds
  deriving DecidableEq, Repr

/-- `reset` in any state (R340, R341): every item the spec names at its reset value. The count of oracle draws is no item of
the spec's and goes on, so that no draw after a reset repeats one before it. -/
def State.resetOp (s : State) : State := { State.reset with draws := s.draws }

/-- `load(bytes, offset)` (R346): all or nothing, and only `Mem` is written. -/
def State.load (cfg : Config) (s : State) (bytes : List Byte) (offset : Word) : LoadResult × State :=
  if offset.toNat + bytes.length ≤ cfg.memSize then (.ok, s.storeBytes offset.toNat bytes)
  else (.loadOutOfBounds, s)

/-- A timer's decrement, floored at 0 (R320). -/
def countDown (b : Byte) : Byte := if b = 0x00#8 then 0x00#8 else b - 1#8

/-- `tick` (R320), in every run state. -/
def State.tick (s : State) : State := { s with dt := countDown s.dt, st := countDown s.st }

/-- `set_key(k, b)` for `k` in 0..15 (R323). -/
def State.setKey (s : State) (k : Fin 16) (pressed : Bool) : State := { s with key := s.key.set k.val pressed }

/-- `flush` (R324): a copy of `Disp` when `Dirty`, which is then cleared; else nothing. -/
def State.flush (s : State) : Option Display × State :=
  if s.dirty then (some s.disp, { s with dirty := false }) else (none, s)

/-- `view` (R325). -/
def State.view (s : State) : Display × Bool := (s.disp, s.dirty)

/-- `is_halted` (R306). -/
def State.isHalted (s : State) : Bool := s.runState == .halted

/-- `diagnostics` (R306). -/
def State.diagnostics (s : State) : Option Diag := s.diag

/-- `sound_active` (R322). -/
def State.soundActive (s : State) : Bool := s.st != 0x00#8

/-- A call of one interface operation, with its inputs (R45). -/
inductive HostCall where
  | reset
  | load (bytes : List Byte) (offset : Word)
  | step
  | tick
  | setKey (k : Fin 16) (pressed : Bool)
  | flush
  | view
  | isHalted
  | diagnostics
  | soundActive
  deriving DecidableEq, Repr

/-- What a call gives back (R45, R348). -/
inductive Reply where
  | nothing
  | loaded (r : LoadResult)
  | flushed (d : Option Display)
  | viewed (d : Display) (dirty : Bool)
  | halted (b : Bool)
  | diagnosed (d : Option Diag)
  | sound (b : Bool)
  deriving DecidableEq, Repr

/-- The answer of a step as an interface transaction. -/
def replyNothing (a : Answer) : Host.Outcome (Reply × State) Fault Refusal :=
  match a with
  | .next t => .next (.nothing, t)
  | .fault f => .fault f
  | .refused r => .refused r

/-- One transaction at the configuration `cfg`: the reply and the state it leaves (R3, R45, R46). -/
def performIn (cfg : Config) (call : HostCall) (s : State) : Host.Outcome (Reply × State) Fault Refusal :=
  match call with
  | .reset => .next (.nothing, s.resetOp)
  | .load bytes offset => .next (.loaded (s.load cfg bytes offset).1, (s.load cfg bytes offset).2)
  | .step => replyNothing (stepIn cfg s)
  | .tick => .next (.nothing, s.tick)
  | .setKey k pressed => .next (.nothing, s.setKey k pressed)
  | .flush => .next (.flushed s.flush.1, s.flush.2)
  | .view => .next (.viewed s.view.1 s.view.2, s)
  | .isHalted => .next (.halted s.isHalted, s)
  | .diagnostics => .next (.diagnosed s.diagnostics, s)
  | .soundActive => .next (.sound s.soundActive, s)

/-- One transaction of this package's machine. -/
def perform (call : HostCall) (s : State) : Host.Outcome (Reply × State) Fault Refusal := performIn config call s

/-- The transactions of a host, in the order it calls them, with the replies (R46). -/
def performAll (calls : List HostCall) (s : State) : Host.Outcome (List Reply × State) Fault Refusal :=
  match calls with
  | [] => .next ([], s)
  | call :: rest =>
    match perform call s with
    | .fault f => .fault f
    | .refused r => .refused r
    | .next (reply, t) =>
      match performAll rest t with
      | .fault f => .fault f
      | .refused r => .refused r
      | .next (replies, u) => .next (reply :: replies, u)

/-- One frame of the host loop: `stepsPerTick` steps, one tick, a flush (R347). The number is the host's own (R16). A flush
of a clean buffer returns nothing and changes nothing (R324), so calling it always is R347's flush "if the buffer is marked
dirty". -/
def hostFrame (stepsPerTick : Nat) : List HostCall := List.replicate stepsPerTick .step ++ [.tick, .flush]

/-- The host's boot of a program (R345): reset, then the image at `PROGRAM_BASE`. -/
def bootCalls (image : List Byte) : List HostCall := [.reset, .load image programBase]

end Sys2Proof.Machine
end

