-- ==== Sys2Proof/Safety.lean ====
section
/-! DEFINITION. The terms claims are stated in: frames, the spec's table of who writes what, the fault conditions, the closed
form of a draw, the states a run can be in, and the invariant. Each is written from the spec's words, not from the meanings. -/

namespace Sys2Proof.Machine

/-! ### Frames -/

/-- The items of the state but the registers and memory (spec/10_state.md). -/
inductive Part where
  | index | pc | stack | sp | dt | st | disp | dirty | key | runState | waitX | cycles | diag | draws
  deriving DecidableEq, Repr

/-- The item is the same in both states. -/
def Kept (p : Part) (s t : State) : Prop :=
  match p with
  | .index => t.i = s.i
  | .pc => t.pc = s.pc
  | .stack => t.stack = s.stack
  | .sp => t.sp = s.sp
  | .dt => t.dt = s.dt
  | .st => t.st = s.st
  | .disp => t.disp = s.disp
  | .dirty => t.dirty = s.dirty
  | .key => t.key = s.key
  | .runState => t.runState = s.runState
  | .waitX => t.waitX = s.waitX
  | .cycles => t.cycles = s.cycles
  | .diag => t.diag = s.diag
  | .draws => t.draws = s.draws

/-- From `s` to `t` nothing changes but the items `parts`, the registers `dests` and the bytes of memory `stored`. -/
structure FrameBut (parts : List Part) (dests : RegIdx → Prop) (stored : Nat → Prop) (s t : State) : Prop where
  registers : ∀ y, ¬ dests y → t.reg y = s.reg y
  memory : ∀ a, ¬ stored a → t.mem.read a = s.mem.read a
  others : ∀ p, p ∉ parts → Kept p s t

/-- No register is written. -/
def noReg (_ : RegIdx) : Prop := False

/-- No byte of memory is stored to. -/
def noByte (_ : Nat) : Prop := False

/-- The `count` bytes from `first`. -/
def bytesFrom (first count a : Nat) : Prop := first ≤ a ∧ a < first + count

/-- A claim about the meanings under a configuration, made of this package's machine and of the machine at every
configuration. -/
def EveryRun (claim : Config → (Instr → State → Answer) → Prop) : Prop :=
  claim config exec ∧ ∀ cfg, claim cfg (execIn cfg)

/-- `x` holds the result, `PC` is 2 further, nothing else changed. -/
structure PlainResult (s t : State) (x : RegIdx) (result : Byte) : Prop where
  result : t.reg x = result
  pc : t.pc = s.pc + 2#16
  frame : FrameBut [.pc] (fun y => y = x) noByte s t

/-- `x` holds the result unless it is `VF`, `VF` holds the flag in every case (R24), `PC` is 2 further, nothing else changed. -/
structure FlagResult (s t : State) (x : RegIdx) (result flag : Byte) : Prop where
  result : x ≠ vf → t.reg x = result
  flag : t.reg vf = flag
  pc : t.pc = s.pc + 2#16
  frame : FrameBut [.pc] (fun y => y = x ∨ y = vf) noByte s t

/-- The result of 8xy1, 8xy2, 8xy3: `VF` is 0 afterwards when `LOGIC_RESETS_VF`, and is written only as `x` otherwise. -/
def LogicResult (cfg : Config) (s t : State) (x : RegIdx) (result : Byte) : Prop :=
  (cfg.logicResetsVF = true → FlagResult s t x result 0x00#8) ∧ (cfg.logicResetsVF = false → PlainResult s t x result)

/-- Only `PC` changed, to `a`. -/
structure JumpResult (s t : State) (a : Word) : Prop where
  pc : t.pc = a
  frame : FrameBut [.pc] noReg noByte s t

/-- An answer with its state changed. -/
def mapAnswer (f : State → State) (a : Answer) : Answer :=
  match a with
  | .next t => .next (f t)
  | .fault r => .fault r
  | .refused r => .refused r

/-! ### Who writes what (R23, R42, R62) -/

/-- The items an instruction may write when it completes, but registers and memory (R42, R28). -/
def effects (i : Instr) : List Part :=
  match i with
  | .cls => [.disp, .dirty, .pc]
  | .ret => [.sp, .pc]
  | .callNnn _ => [.stack, .sp, .pc]
  | .sysNnn _ | .jpNnn _ | .jpV0Nnn _ => [.pc]
  | .seVxKk _ _ | .sneVxKk _ _ | .seVxVy _ _ | .sneVxVy _ _ | .skpVx _ | .sknpVx _ => [.pc]
  | .ldVxKk _ _ | .addVxKk _ _ | .ldVxVy _ _ | .orVxVy _ _ | .andVxVy _ _ | .xorVxVy _ _ => [.pc]
  | .addVxVy _ _ | .subVxVy _ _ | .shrVxVy _ _ | .subnVxVy _ _ | .shlVxVy _ _ => [.pc]
  | .rndVxKk _ _ => [.pc, .draws]
  | .drwVxVyN _ _ _ => [.disp, .dirty, .pc]
  | .ldVxDt _ => [.pc]
  | .ldDtVx _ => [.dt, .pc]
  | .ldStVx _ => [.st, .pc]
  | .ldVxK _ => [.pc, .runState, .waitX]
  | .ldINnn _ | .addIVx _ | .ldFVx _ | .ldMemVx _ | .ldVxMem _ => [.index, .pc]
  | .ldBVx _ => [.pc]

/-- The registers an instruction may write (R23, R42). -/
def writesReg (cfg : Config) (i : Instr) (y : RegIdx) : Prop :=
  match i with
  | .ldVxKk x _ | .addVxKk x _ | .ldVxVy x _ | .rndVxKk x _ | .ldVxDt x | .ldVxK x => y = x
  | .orVxVy x _ | .andVxVy x _ | .xorVxVy x _ => y = x ∨ (cfg.logicResetsVF = true ∧ y = vf)
  | .addVxVy x _ | .subVxVy x _ | .shrVxVy x _ | .subnVxVy x _ | .shlVxVy x _ => y = x ∨ y = vf
  | .drwVxVyN _ _ _ | .addIVx _ => y = vf
  | .ldVxMem x => y ≤ x
  | .cls | .ret | .callNnn _ | .sysNnn _ | .jpNnn _ | .jpV0Nnn _ | .seVxKk _ _ | .sneVxKk _ _ | .seVxVy _ _
  | .sneVxVy _ _ | .skpVx _ | .sknpVx _ | .ldDtVx _ | .ldStVx _ | .ldINnn _ | .ldFVx _ | .ldBVx _ | .ldMemVx _ => False

/-- The bytes an instruction stores to: `I .. I + 2` for Fx33, `I .. I + x` for Fx55 (R62). -/
def storesTo (i : Instr) (s : State) (a : Nat) : Prop :=
  match i with
  | .ldBVx _ => bytesFrom s.i.toNat 3 a
  | .ldMemVx x => bytesFrom s.i.toNat (x.toNat + 1) a
  | .cls | .ret | .callNnn _ | .sysNnn _ | .jpNnn _ | .jpV0Nnn _ | .seVxKk _ _ | .sneVxKk _ _ | .seVxVy _ _
  | .sneVxVy _ _ | .skpVx _ | .sknpVx _ | .ldVxKk _ _ | .addVxKk _ _ | .ldVxVy _ _ | .orVxVy _ _ | .andVxVy _ _
  | .xorVxVy _ _ | .addVxVy _ _ | .subVxVy _ _ | .shrVxVy _ _ | .subnVxVy _ _ | .shlVxVy _ _ | .rndVxKk _ _
  | .drwVxVyN _ _ _ | .ldVxDt _ | .ldDtVx _ | .ldStVx _ | .ldVxK _ | .ldINnn _ | .addIVx _ | .ldFVx _
  | .ldVxMem _ => False

/-- The instructions that read `Key` (R129). -/
def readsKey (i : Instr) : Bool :=
  match i with
  | .skpVx _ | .sknpVx _ | .ldVxK _ => true
  | .cls | .ret | .callNnn _ | .sysNnn _ | .jpNnn _ | .jpV0Nnn _ | .seVxKk _ _ | .sneVxKk _ _ | .seVxVy _ _
  | .sneVxVy _ _ | .ldVxKk _ _ | .addVxKk _ _ | .ldVxVy _ _ | .orVxVy _ _ | .andVxVy _ _ | .xorVxVy _ _
  | .addVxVy _ _ | .subVxVy _ _ | .shrVxVy _ _ | .subnVxVy _ _ | .shlVxVy _ _ | .rndVxKk _ _ | .drwVxVyN _ _ _
  | .ldVxDt _ | .ldDtVx _ | .ldStVx _ | .ldINnn _ | .addIVx _ | .ldFVx _ | .ldBVx _ | .ldMemVx _ | .ldVxMem _ => false

/-! ### Fault conditions (R300 to R308) -/

/-- An instruction's own fault condition: the stack check of CALL and RET, the bounds check of DRW, LD B, LD [I] and LD Vx,[I]
(R308, third). -/
def ownFault (cfg : Config) (i : Instr) (s : State) : Option FaultKind :=
  match i with
  | .callNnn _ => if s.sp.val = 16 then some .stackOverflow else none
  | .ret => if s.sp.val = 0 then some .stackUnderflow else none
  | .drwVxVyN _ _ n =>
    if 0 < n.toNat ∧ s.i.toNat + n.toNat - 1 ≥ cfg.memSize then some .memoryOutOfBounds else none
  | .ldBVx _ => if s.i.toNat + 2 ≥ cfg.memSize then some .memoryOutOfBounds else none
  | .ldMemVx x | .ldVxMem x => if s.i.toNat + x.toNat ≥ cfg.memSize then some .memoryOutOfBounds else none
  | .cls | .sysNnn _ | .jpNnn _ | .jpV0Nnn _ | .seVxKk _ _ | .sneVxKk _ _ | .seVxVy _ _ | .sneVxVy _ _ | .skpVx _
  | .sknpVx _ | .ldVxKk _ _ | .addVxKk _ _ | .ldVxVy _ _ | .orVxVy _ _ | .andVxVy _ _ | .xorVxVy _ _ | .addVxVy _ _
  | .subVxVy _ _ | .shrVxVy _ _ | .subnVxVy _ _ | .shlVxVy _ _ | .rndVxKk _ _ | .ldVxDt _ | .ldDtVx _ | .ldStVx _
  | .ldVxK _ | .ldINnn _ | .addIVx _ | .ldFVx _ => none

/-- The word at `PC`: `Mem[PC] ++ Mem[PC + 1]` (R122). -/
def wordAtPc (s : State) : Word := wordOfBytes (s.mem.read s.pc.toNat) (s.mem.read (s.pc.toNat + 1))

/-- The fault a running engine's step raises, and its opcode, checked in the order of R308. -/
def stepFault (cfg : Config) (s : State) : Option (FaultKind × Word) :=
  if s.pc.toNat + 1 ≥ cfg.memSize then some (.memoryOutOfBounds, 0x0000#16)
  else
    match decode cfg (wordAtPc s) with
    | .unknownOpcode => some (.unknownOpcode, wordAtPc s)
    | .instr i => (ownFault cfg i s).map fun k => (k, wordAtPc s)

/-- The state a fault leaves: `Halted`, the diagnostics, and nothing else (R305). -/
def faulted (s : State) (kind : FaultKind) (opcode : Word) : State :=
  { s with runState := .halted, diag := some ⟨kind, opcode, s.pc, s.cycles⟩ }

/-! ### Keys and the display -/

/-- Some key is pressed. -/
def AnyKey (s : State) : Prop := ∃ k : Fin 16, s.key[k.val] = true

/-- The byte names a key, and that key is pressed: `k < 16 and Key[k]` (R253, R254). -/
def KeyNamed (s : State) (b : Byte) : Prop := ∃ k : Fin 16, k.val = b.toNat ∧ s.key[k.val] = true

/-- `k` is the lowest pressed key (R124, R255). -/
def LowestKey (s : State) (k : Fin 16) : Prop := s.key[k.val] = true ∧ ∀ j : Fin 16, j < k → s.key[j.val] = false

/-- How far `pos` lies past `start` on an axis of `size` cells: around the edge under `wrap`, never before `start` under
`clip` (R155). -/
def offsetFrom (edge : DrawEdge) (size start pos : Nat) : Option Nat :=
  match edge with
  | .wrap => some ((pos + size - start) % size)
  | .clip => if start ≤ pos then some (pos - start) else none

/-- The sprite of DRW Vx,Vy,n has a set bit on the cell: the bit `7 - b` of its row `r`, where the cell lies `r` rows below and
`b` columns right of the start (R152, R153, R155). -/
def spriteCovers (cfg : Config) (s : State) (x y : RegIdx) (n : Nibble) (p : Cell) : Bool :=
  match offsetFrom cfg.drawEdge 32 ((s.reg y).toNat % 32) p.1.val, offsetFrom cfg.drawEdge 64 ((s.reg x).toNat % 64) p.2.val with
  | some r, some b => decide (r < n.toNat) && decide (b < 8) && (s.mem.read (s.i.toNat + r)).getLsbD (7 - b)
  | _, _ => false

/-! ### Runs (R349) -/

/-- `k` steps in a row. -/
def runSteps (k : Nat) (s : State) : Answer :=
  match k with
  | 0 => .next s
  | k + 1 =>
    match step s with
    | .next t => runSteps k t
    | .fault r => .fault r
    | .refused r => .refused r

/-- A run has ended: a faulted end, with `Diag` saying why (R349). -/
def Ended (s : State) : Prop := s.runState = .halted

/-- A run has parked: the engine is running at a jump to itself (R349). -/
def Parked (s : State) : Prop :=
  s.runState = .running ∧ s.pc.toNat + 1 < config.memSize ∧
    ∃ nnn : Addr, wordAtPc s = formatA 0x1#4 nnn ∧ s.pc = nnn.setWidth 16

/-- A run is safe so far: no fault has ended it. -/
def SafeSoFar (s : State) : Prop := ¬ Ended s

/-! ### The invariant -/

/-- Why a fault's record stands in `Diag`: the condition of R300 holds in the state it left. -/
def DiagJustified (s : State) (d : Diag) : Prop :=
  (d.kind = .memoryOutOfBounds ∧ d.opcode = 0x0000#16 ∧ s.pc.toNat + 1 ≥ config.memSize) ∨
  (d.kind = .unknownOpcode ∧ decode config d.opcode = .unknownOpcode) ∨
  (∃ i, decode config d.opcode = .instr i ∧ ownFault config i s = some d.kind)

/-- What holds in every state a host can bring the machine to. -/
structure Inv (s : State) : Prop where
  /-- Memory keeps its one form, every listed address below `MEM_SIZE` (R20, R63). -/
  memory : s.mem.wf = true
  /-- `Diag` is written when the engine halts, and only then (R40, R305). -/
  haltedIffDiag : s.runState = .halted ↔ s.diag.isSome = true
  /-- `PC` holds the faulting instruction's address, and `Cycles` stands still in `Halted` (R121, R305). -/
  diagHere : ∀ d, s.diag = some d → d.pc = s.pc ∧ d.cycles = s.cycles
  /-- The record names the condition that raised it (R300). -/
  diagCause : ∀ d, s.diag = some d → DiagJustified s d
  /-- While waiting, `PC` holds the address of an Fx0A that was fetched (R126). -/
  waiting : s.runState = .waitingForKey → s.pc.toNat + 1 < config.memSize
  /-- Every stack entry in use is the address of a CALL that was fetched (R31). -/
  stack : ∀ k (h : k < 16), k < s.sp.val → (s.stack[k]'h).toNat + 1 < config.memSize
  /-- `PC` never comes near its wrap: the highest value an instruction leaves is that of Bnnn (R128, R174). -/
  pcBound : s.pc.toNat ≤ 0x10FE

end Sys2Proof.Machine
end

