-- ==== Sys2Proof/Certificates/Slice0/Obligations.lean ====
section
/-! DEFINITION. The statements for the provers. Each docstring names the rule of spec/ it formalises; where a statement rests on
a decision the spec marks as its own (D<n> of spec/92_eei_decisions.md), on general knowledge it marks so (G<n> of
spec/93_implementation_defined.md) or on a choice of the model, the docstring says which. Every opcode number but those of
8xy5, Fx55 and Fx65 is the spec's G1 (D21). -/

open Sys2Proof Sys2Proof.Machine

/-! ### Encoding -/

/-- Every well-formed instruction, with every operand at every value, under every configuration, decodes back from its word
(R92, R93; the opcode numbers are D21). -/
def Obligations.DecodeEncodeRoundTrip : Prop :=
  ∀ (cfg : Config) (i : Instr), i.wellFormed cfg = true → decode cfg (encode i) = .instr i

/-- A word that decodes decodes to a well-formed instruction, and is that instruction's word but for the ignored `n` of classes
0x5 and 0x9 (R93, R94, R95; D18, D19). -/
def Obligations.DecodedWordsReencode : Prop :=
  ∀ (cfg : Config) (w : Word) (i : Instr), decode cfg w = .instr i →
    i.wellFormed cfg = true ∧ encode i = canonicalWord w

/-- A decoded word has the `match` of its instruction's opcode-table row under the row's `mask`. -/
def Obligations.DecodedWordsMatchTheirRow : Prop :=
  ∀ (cfg : Config) (w : Word) (i : Instr), decode cfg w = .instr i → w &&& tableMask i = tableMatch i

/-- The illegal words are exactly those R101 lists (R101 is the spec's own inference from R93). -/
def Obligations.IllegalWordsAreExactlyTheListed : Prop :=
  ∀ (cfg : Config) (w : Word), decode cfg w = .unknownOpcode ↔
    (fieldClass w = 0x8#4 ∧ fieldN w ∈ [0x8#4, 0x9#4, 0xA#4, 0xB#4, 0xC#4, 0xD#4, 0xF#4]) ∨
    (fieldClass w = 0xE#4 ∧ fieldKk w ∉ [0x9E#8, 0xA1#8]) ∨
    (fieldClass w = 0xF#4 ∧
      fieldKk w ∉ [0x07#8, 0x0A#8, 0x15#8, 0x18#8, 0x1E#8, 0x29#8, 0x33#8, 0x55#8, 0x65#8]) ∨
    (fieldClass w = 0xB#4 ∧ cfg.bnnnMode = .unknown)

/-- The decode table of spec/95_test_vectors.md L2.1, written out word by word. -/
def Obligations.DecodingOfTheListedWords : Prop :=
  decode Config.default 0x0000#16 = .instr (.sysNnn 0x000#12) ∧
  decode Config.default 0x00E0#16 = .instr .cls ∧
  decode Config.default 0x00EE#16 = .instr .ret ∧
  decode Config.default 0x01E0#16 = .instr (.sysNnn 0x1E0#12) ∧
  decode Config.default 0x1ABC#16 = .instr (.jpNnn 0xABC#12) ∧
  decode Config.default 0x2ABC#16 = .instr (.callNnn 0xABC#12) ∧
  decode Config.default 0x5121#16 = .instr (.seVxVy 0x1#4 0x2#4) ∧
  decode Config.default 0x912F#16 = .instr (.sneVxVy 0x1#4 0x2#4) ∧
  decode Config.default 0x8125#16 = .instr (.subVxVy 0x1#4 0x2#4) ∧
  decode Config.default 0x812E#16 = .instr (.shlVxVy 0x1#4 0x2#4) ∧
  decode Config.default 0xB123#16 = .instr (.jpV0Nnn 0x123#12) ∧
  decode Config.default 0xE0A1#16 = .instr (.sknpVx 0x0#4) ∧
  decode Config.default 0xF033#16 = .instr (.ldBVx 0x0#4) ∧
  decode Config.default 0x8008#16 = .unknownOpcode ∧
  decode Config.default 0xE0A0#16 = .unknownOpcode ∧
  decode Config.default 0xF030#16 = .unknownOpcode

/-- Class 0x0 by all 16 bits, classes 0x5 and 0x9 for every `n`, class 0xB by `BNNN_MODE` (R94, R95, R99; D18, D19, D20). -/
def Obligations.DecodingOfTheOpenClasses : Prop :=
  ∀ cfg : Config,
    (∀ nnn : Addr, decode cfg (formatA 0x0#4 nnn) =
      if nnn = 0x0E0#12 then .instr .cls else if nnn = 0x0EE#12 then .instr .ret else .instr (.sysNnn nnn)) ∧
    (∀ x y n, decode cfg (formatXYN 0x5#4 x y n) = .instr (.seVxVy x y)) ∧
    (∀ x y n, decode cfg (formatXYN 0x9#4 x y n) = .instr (.sneVxVy x y)) ∧
    (∀ nnn : Addr, decode cfg (formatA 0xB#4 nnn) =
      match cfg.bnnnMode with
      | .jumpV0 => .instr (.jpV0Nnn nnn)
      | .unknown => .unknownOpcode)

/-! ### Steps and the run state -/

/-- A step of a running engine whose word at `PC` decodes is the execution of that instruction, with `Cycles` already counted
(R120, R122). The word need not be the canonical one. -/
def Obligations.StepRunsTheDecodedInstruction : Prop :=
  ∀ (s : State) (i : Instr), s.runState = .running → s.pc.toNat + 1 < config.memSize →
    decode config (wordAtPc s) = .instr i → step s = exec i { s with cycles := s.cycles + 1 }

/-- Every step answers a next state: the engine never stops but by `Halted`, and no instruction is refused (R120, R305). -/
def Obligations.StepAlwaysAnswersANextState : Prop := ∀ s : State, ∃ t : State, step s = .next t

/-- Faults are precise, are checked in the order of R308, and halt: when the step's fault condition holds, the state after it is
the state before but for `RunState`, `Diag` and `Cycles`, and the record holds the fetched word, `PC` and the new `Cycles`; when
it does not hold, the engine is not halted and `Diag` is as it was. At every configuration (R300, R304, R305, R308; D4, D24, D26). -/
def Obligations.FaultsArePreciseAndOrdered : Prop :=
  (∀ s : State, step s = stepIn config s) ∧
  ∀ (cfg : Config) (s : State), s.runState = .running →
    match stepFault cfg s with
    | some (kind, opcode) =>
      stepIn cfg s = .next { s with
        cycles := s.cycles + 1, runState := .halted, diag := some ⟨kind, opcode, s.pc, s.cycles + 1⟩ }
    | none => ∃ t, stepIn cfg s = .next t ∧ t.runState ≠ .halted ∧ t.diag = s.diag ∧ t.cycles = s.cycles + 1

/-- In `Halted` a step changes nothing, not even `Cycles` (R121; the last is D27). -/
def Obligations.HaltedStepChangesNothing : Prop := ∀ s : State, s.runState = .halted → step s = .next s

/-- The wait poll: with a key pressed the lowest one's index goes to `V[WaitX]`, `PC` advances by 2 and the engine runs; with
none, only `Cycles` changes (R124; D17). -/
def Obligations.WaitPollTakesTheLowestKey : Prop :=
  ∀ s : State, s.runState = .waitingForKey →
    (∀ k, LowestKey s k → ∃ t, step s = .next t ∧ (t.reg s.waitX).toNat = k.val ∧ t.pc = s.pc + 2#16 ∧
      t.runState = .running ∧ t.cycles = s.cycles + 1 ∧
      FrameBut [.pc, .runState, .cycles] (fun y => y = s.waitX) noByte s t) ∧
    (¬ AnyKey s → step s = .next { s with cycles := s.cycles + 1 })

/-- The transition table of `RunState`, whole (R125). -/
def Obligations.RunStateTransitions : Prop :=
  (∀ s : State, ∃ t, step s = .next t ∧
    (s.runState = .running →
      (t.runState = .halted ↔ (stepFault config s).isSome = true) ∧
      (t.runState = .waitingForKey ↔
        s.pc.toNat + 1 < config.memSize ∧ (∃ x, decode config (wordAtPc s) = .instr (.ldVxK x)) ∧ ¬ AnyKey s)) ∧
    (s.runState = .waitingForKey → (AnyKey s → t.runState = .running) ∧ (¬ AnyKey s → t.runState = .waitingForKey)) ∧
    (s.runState = .halted → t.runState = .halted)) ∧
  (∀ s : State, ∃ t, perform .reset s = .next (.nothing, t) ∧ t.runState = .running) ∧
  (∀ (s t : State) (r : Reply) (call : HostCall), call ≠ .reset → call ≠ .step →
    perform call s = .next (r, t) → t.runState = s.runState)

/-- Only `tick` decrements the timers, only the host writes `Key`, only a flush clears `Dirty`, and a step reads `Key` only in SKP,
SKNP, Fx0A and the poll: a step that is none of these does the same under other keys (R129). That clause compares two runs: a step
over a Cxkk word gives both the same byte because both draw at the same count, the same oracle byte of R130; the count is the
model's choice, notes/assumptions/2.md. -/
def Obligations.StepLeavesTimersKeysAndDirtyAlone : Prop :=
  (∀ s t : State, step s = .next t →
    t.key = s.key ∧ (s.dirty = true → t.dirty = true) ∧
    (t.dt = s.dt ∨ ∃ x, decode config (wordAtPc s) = .instr (.ldDtVx x) ∧ t.dt = s.reg x) ∧
    (t.st = s.st ∨ ∃ x, decode config (wordAtPc s) = .instr (.ldStVx x) ∧ t.st = s.reg x)) ∧
  (∀ (s : State) (keys : Vector Bool 16), s.runState ≠ .waitingForKey →
    (∀ i, decode config (wordAtPc s) = .instr i → readsKey i = false) →
    step { s with key := keys } = mapAnswer (fun t => { t with key := keys }) (step s))

/-- With no key held, the wait never ends: any number of steps changes `Cycles` only (R356 is the spec's own inference from
R124). -/
def Obligations.WaitWithoutAKeyHangs : Prop :=
  ∀ (k : Nat) (s : State), s.runState = .waitingForKey → ¬ AnyKey s →
    runSteps k s = .next { s with cycles := s.cycles + k }

/-- After reset with nothing loaded: 1,792 no-ops, and the fetch fault at the 1,793rd step (R344, the spec's own inference). -/
def Obligations.EmptyMemoryRunsOffTheEnd : Prop :=
  runSteps 1792 State.reset = .next { State.reset with pc := 0x1000#16, cycles := 1792 } ∧
  runSteps 1793 State.reset = .next { State.reset with
    pc := 0x1000#16, cycles := 1793, runState := .halted,
    diag := some ⟨.memoryOutOfBounds, 0x0000#16, 0x1000#16, 1793⟩ }

/-- A parked machine steps for ever with no change but `Cycles` (R349, decision D33). -/
def Obligations.ParkedRunsStayParked : Prop :=
  ∀ (k : Nat) (s : State), Parked s →
    runSteps k s = .next { s with cycles := s.cycles + k } ∧ Parked { s with cycles := s.cycles + k }

/-! ### Frames and completion of every instruction -/

/-- Every instruction, in every state: where its own fault condition holds it takes that fault and nothing else; where it does
not hold it answers a next state in which nothing changes but the items, registers and bytes the spec says it writes. At every
configuration (R42, R62, R63, R305; D4, D26). -/
def Obligations.EveryInstructionCompletesOrFaults : Prop :=
  EveryRun fun cfg run => ∀ (i : Instr) (s : State),
    match ownFault cfg i s with
    | some kind => run i s = .next (faulted s kind (encode i))
    | none => ∃ t, run i s = .next t ∧ FrameBut (effects i) (writesReg cfg i) (storesTo i s) s t

/-! ### Loads, arithmetic, logic, random -/

/-- LD Vx,kk (R200). -/
def Obligations.LoadImmediateResult : Prop :=
  ∀ (x : RegIdx) (kk : Byte) (s : State),
    encode (.ldVxKk x kk) = formatXK 0x6#4 x kk ∧ ∃ t, exec (.ldVxKk x kk) s = .next t ∧ PlainResult s t x kk

/-- ADD Vx,kk: the sum modulo 256, no flag (R201). -/
def Obligations.AddImmediateResult : Prop :=
  ∀ (x : RegIdx) (kk : Byte) (s : State),
    encode (.addVxKk x kk) = formatXK 0x7#4 x kk ∧
    ∃ t, exec (.addVxKk x kk) s = .next t ∧
      PlainResult s t x (BitVec.ofNat 8 (((s.reg x).toNat + kk.toNat) % 256))

/-- LD Vx,Vy (R202). -/
def Obligations.CopyResult : Prop :=
  ∀ (x y : RegIdx) (s : State),
    encode (.ldVxVy x y) = formatXYN 0x8#4 x y 0x0#4 ∧ ∃ t, exec (.ldVxVy x y) s = .next t ∧ PlainResult s t x (s.reg y)

/-- OR, AND, XOR: the result, and `VF` by `LOGIC_RESETS_VF` (R203, R204, R205; D13). -/
def Obligations.LogicResults : Prop :=
  EveryRun fun cfg run => ∀ (x y : RegIdx) (s : State),
    (∃ t, run (.orVxVy x y) s = .next t ∧ LogicResult cfg s t x (s.reg x ||| s.reg y)) ∧
    (∃ t, run (.andVxVy x y) s = .next t ∧ LogicResult cfg s t x (s.reg x &&& s.reg y)) ∧
    (∃ t, run (.xorVxVy x y) s = .next t ∧ LogicResult cfg s t x (s.reg x ^^^ s.reg y))

/-- ADD Vx,Vy: the sum modulo 256 and the carry, written last (R206; D11). -/
def Obligations.AddResult : Prop :=
  ∀ (x y : RegIdx) (s : State),
    encode (.addVxVy x y) = formatXYN 0x8#4 x y 0x4#4 ∧
    ∃ t, exec (.addVxVy x y) s = .next t ∧
      FlagResult s t x (BitVec.ofNat 8 (((s.reg x).toNat + (s.reg y).toNat) % 256))
        (if (s.reg x).toNat + (s.reg y).toNat > 255 then 1#8 else 0#8)

/-- SUB Vx,Vy: the difference modulo 256 and `VF` = not borrow, written last (R207; D11). -/
def Obligations.SubResult : Prop :=
  ∀ (x y : RegIdx) (s : State),
    encode (.subVxVy x y) = formatXYN 0x8#4 x y 0x5#4 ∧
    ∃ t, exec (.subVxVy x y) s = .next t ∧
      FlagResult s t x (BitVec.ofNat 8 (((s.reg x).toNat + 256 - (s.reg y).toNat) % 256))
        (if (s.reg x).toNat ≥ (s.reg y).toNat then 1#8 else 0#8)

/-- SUBN Vx,Vy: the reverse difference and `VF` = not borrow, written last (R209; D11; its direction is G5). -/
def Obligations.ReverseSubResult : Prop :=
  ∀ (x y : RegIdx) (s : State),
    encode (.subnVxVy x y) = formatXYN 0x8#4 x y 0x7#4 ∧
    ∃ t, exec (.subnVxVy x y) s = .next t ∧
      FlagResult s t x (BitVec.ofNat 8 (((s.reg y).toNat + 256 - (s.reg x).toNat) % 256))
        (if (s.reg y).toNat ≥ (s.reg x).toNat then 1#8 else 0#8)

/-- SHR and SHL by one of the operand `SHIFT_SOURCE` names, `VF` = the bit shifted out (R208, R210; D11, D12). -/
def Obligations.ShiftResults : Prop :=
  EveryRun fun cfg run => ∀ (x y : RegIdx) (s : State) (v : Byte),
    v = (match cfg.shiftSource with | .vx => s.reg x | .vy => s.reg y) →
    (∃ t, run (.shrVxVy x y) s = .next t ∧
      FlagResult s t x (BitVec.ofNat 8 (v.toNat / 2)) (BitVec.ofNat 8 (v.toNat % 2))) ∧
    (∃ t, run (.shlVxVy x y) s = .next t ∧
      FlagResult s t x (BitVec.ofNat 8 (v.toNat * 2 % 256)) (BitVec.ofNat 8 (v.toNat / 128)))

/-- RND Vx,kk: the oracle's byte of this draw, whatever it is, masked; the draw is consumed (R214). The count of draws is the
model's own field (notes/assumptions/2.md) and the statement holds for every value of it. -/
def Obligations.RandomResult : Prop :=
  ∀ (x : RegIdx) (kk : Byte) (s : State),
    encode (.rndVxKk x kk) = formatXK 0xC#4 x kk ∧
    ∃ t, exec (.rndVxKk x kk) s = .next t ∧ t.reg x = Config.randomByte s.draws &&& kk ∧ t.pc = s.pc + 2#16 ∧
      t.draws = s.draws + 1 ∧ FrameBut [.pc, .draws] (fun y => y = x) noByte s t

/-- Two ADDs of `kk` leave every register as one ADD of `2 * kk` modulo 256 does (S1, R201). -/
def Obligations.TwoAddsAreOneDoubleAdd : Prop :=
  ∀ (x : RegIdx) (kk : Byte) (s : State), ∃ t u w,
    exec (.addVxKk x kk) s = .next t ∧ exec (.addVxKk x kk) t = .next u ∧ exec (.addVxKk x (2#8 * kk)) s = .next w ∧
    ∀ y, u.reg y = w.reg y

/-! ### Control flow -/

/-- SYS nnn is a no-op (R170; D18). -/
def Obligations.SysCallIsANoOp : Prop :=
  ∀ (nnn : Addr) (s : State), ∃ t, exec (.sysNnn nnn) s = .next t ∧ JumpResult s t (s.pc + 2#16)

/-- JP nnn (R171). -/
def Obligations.JumpTakesItsTarget : Prop :=
  ∀ (nnn : Addr) (s : State),
    encode (.jpNnn nnn) = formatA 0x1#4 nnn ∧ ∃ t, exec (.jpNnn nnn) s = .next t ∧ JumpResult s t (nnn.setWidth 16)

/-- JP V0,nnn adds `V[0]`, always that register; with `BNNN_MODE = unknown` a step over a Bnnn word takes `UnknownOpcode` (R99,
R174; G4, D20). -/
def Obligations.JumpWithOffset : Prop :=
  (∀ (nnn : Addr) (s : State), ∃ t, exec (.jpV0Nnn nnn) s = .next t ∧
    JumpResult s t (BitVec.ofNat 16 (nnn.toNat + (s.reg 0x0#4).toNat))) ∧
  (∀ (cfg : Config) (nnn : Addr) (s : State), cfg.bnnnMode = .unknown → s.runState = .running →
    s.pc.toNat + 1 < cfg.memSize → wordAtPc s = formatA 0xB#4 nnn →
    stepIn cfg s = .next { s with
      cycles := s.cycles + 1, runState := .halted,
      diag := some ⟨.unknownOpcode, formatA 0xB#4 nnn, s.pc, s.cycles + 1⟩ })

/-- CALL nnn pushes its own address and jumps; with the stack full it takes `StackOverflow` and pushes nothing (R173, R302;
D6, D7). -/
def Obligations.CallPushesItsAddress : Prop :=
  ∀ (nnn : Addr) (s : State),
    (∀ (k : Nat) (hk : k < 16), s.sp.val = k → ∃ t, exec (.callNnn nnn) s = .next t ∧
      t.stack[k] = s.pc ∧ (∀ (j : Nat) (hj : j < 16), j ≠ k → t.stack[j] = s.stack[j]) ∧ t.sp.val = k + 1 ∧
      t.pc = nnn.setWidth 16 ∧ FrameBut [.stack, .sp, .pc] noReg noByte s t) ∧
    (s.sp.val = 16 → exec (.callNnn nnn) s = .next (faulted s .stackOverflow (formatA 0x2#4 nnn)))

/-- RET pops and adds 2, the entry kept; with the stack empty it takes `StackUnderflow` (R172). -/
def Obligations.ReturnPopsAndAddsTwo : Prop :=
  encode .ret = 0x00EE#16 ∧
  ∀ s : State,
    (∀ (k : Nat) (hk : k < 16), s.sp.val = k + 1 → ∃ t, exec .ret s = .next t ∧
      t.sp.val = k ∧ t.pc = s.stack[k] + 2#16 ∧ FrameBut [.sp, .pc] noReg noByte s t) ∧
    (s.sp.val = 0 → exec .ret s = .next (faulted s .stackUnderflow 0x00EE#16))

/-- "`CALL nnn` followed by `RET` restores PC to exactly (original PC + 2); stack pointer returns to its pre-call value" (doc00
section 8, quoted in R173; D6), and every stack entry but the popped one, in use or not, is as it was. -/
def Obligations.CallThenReturnComesBack : Prop :=
  ∀ (nnn : Addr) (s : State), s.sp.val < 16 → ∃ t u,
    exec (.callNnn nnn) s = .next t ∧ exec .ret t = .next u ∧ u.pc = s.pc + 2#16 ∧ u.sp = s.sp ∧
    (∀ (j : Nat) (hj : j < 16), j ≠ s.sp.val → u.stack[j] = s.stack[j]) ∧ FrameBut [.stack, .pc] noReg noByte s u

/-- SE and SNE against an immediate (R175, R176). -/
def Obligations.SkipsAgainstAnImmediate : Prop :=
  ∀ (x : RegIdx) (kk : Byte) (s : State),
    encode (.seVxKk x kk) = formatXK 0x3#4 x kk ∧ encode (.sneVxKk x kk) = formatXK 0x4#4 x kk ∧
    (∃ t, exec (.seVxKk x kk) s = .next t ∧ JumpResult s t (s.pc + if s.reg x = kk then 4#16 else 2#16)) ∧
    (∃ t, exec (.sneVxKk x kk) s = .next t ∧ JumpResult s t (s.pc + if s.reg x ≠ kk then 4#16 else 2#16))

/-- SE and SNE between registers (R177, R178; the ignored `n` is D19). -/
def Obligations.SkipsBetweenRegisters : Prop :=
  ∀ (x y : RegIdx) (s : State),
    (∃ t, exec (.seVxVy x y) s = .next t ∧ JumpResult s t (s.pc + if s.reg x = s.reg y then 4#16 else 2#16)) ∧
    (∃ t, exec (.sneVxVy x y) s = .next t ∧ JumpResult s t (s.pc + if s.reg x ≠ s.reg y then 4#16 else 2#16))

/-! ### Index register and memory -/

/-- LD I,nnn (R230). -/
def Obligations.SetIndexResult : Prop :=
  ∀ (nnn : Addr) (s : State),
    encode (.ldINnn nnn) = formatA 0xA#4 nnn ∧
    ∃ t, exec (.ldINnn nnn) s = .next t ∧ t.i = nnn.setWidth 16 ∧ t.pc = s.pc + 2#16 ∧
      FrameBut [.index, .pc] noReg noByte s t

/-- ADD I,Vx: the 16-bit sum, `VF` = 1 when it reaches 0x1000, written last (R231; D11, D15). -/
def Obligations.AddToIndexResult : Prop :=
  ∀ (x : RegIdx) (s : State), ∃ t, exec (.addIVx x) s = .next t ∧
    t.i.toNat = (s.i.toNat + (s.reg x).toNat) % 65536 ∧
    t.reg vf = (if s.i.toNat + (s.reg x).toNat ≥ 0x1000 then 1#8 else 0#8) ∧ t.pc = s.pc + 2#16 ∧
    FrameBut [.index, .pc] (fun y => y = vf) noByte s t

/-- LD F,Vx: the address of the glyph, the byte not masked (R232; D2, D16); for a digit the five bytes there are the glyph's after
reset (R67; D3). -/
def Obligations.FontAddressResult : Prop :=
  (∀ (x : RegIdx) (s : State), ∃ t, exec (.ldFVx x) s = .next t ∧ t.i.toNat = 5 * (s.reg x).toNat ∧
    t.pc = s.pc + 2#16 ∧ FrameBut [.index, .pc] noReg noByte s t) ∧
  (∀ (d r : Nat), d < 16 → r < 5 → State.reset.mem.read (5 * d + r) = fontRow d r)

/-- LD B,Vx: hundreds, tens, units at `I`, `I + 1`, `I + 2`; `MemoryOutOfBounds` with nothing written when `I + 2` is past the end
(R233; the fault is D4). -/
def Obligations.DecimalStoreResult : Prop :=
  EveryRun fun cfg run => ∀ (x : RegIdx) (s : State),
    (s.i.toNat + 2 < cfg.memSize → ∃ t, run (.ldBVx x) s = .next t ∧
      (t.mem.read s.i.toNat).toNat = (s.reg x).toNat / 100 ∧
      (t.mem.read (s.i.toNat + 1)).toNat = (s.reg x).toNat / 10 % 10 ∧
      (t.mem.read (s.i.toNat + 2)).toNat = (s.reg x).toNat % 10 ∧ t.pc = s.pc + 2#16 ∧
      FrameBut [.pc] noReg (bytesFrom s.i.toNat 3) s t) ∧
    (s.i.toNat + 2 ≥ cfg.memSize → run (.ldBVx x) s = .next (faulted s .memoryOutOfBounds (formatX 0xF#4 x 0x33#8)))

/-- LD [I],Vx: `V[k]` at `I + k` for `k` up to `x`, `I` by `INDEX_ADVANCE`; `MemoryOutOfBounds` with nothing written when `I + x` is
past the end (R234; D4, D14). -/
def Obligations.BlockStoreResult : Prop :=
  EveryRun fun cfg run => ∀ (x : RegIdx) (s : State),
    (s.i.toNat + x.toNat < cfg.memSize → ∃ t, run (.ldMemVx x) s = .next t ∧
      (∀ k, k ≤ x → t.mem.read (s.i.toNat + k.toNat) = s.reg k) ∧
      t.i = (if cfg.indexAdvance then BitVec.ofNat 16 (s.i.toNat + x.toNat + 1) else s.i) ∧ t.pc = s.pc + 2#16 ∧
      FrameBut [.index, .pc] noReg (bytesFrom s.i.toNat (x.toNat + 1)) s t) ∧
    (s.i.toNat + x.toNat ≥ cfg.memSize →
      run (.ldMemVx x) s = .next (faulted s .memoryOutOfBounds (formatX 0xF#4 x 0x55#8)))

/-- LD Vx,[I]: `V[k]` from `I + k` for `k` up to `x`, `I` by `INDEX_ADVANCE`; `MemoryOutOfBounds` with no register written when
`I + x` is past the end (R235; D4, D14). -/
def Obligations.BlockLoadResult : Prop :=
  EveryRun fun cfg run => ∀ (x : RegIdx) (s : State),
    (s.i.toNat + x.toNat < cfg.memSize → ∃ t, run (.ldVxMem x) s = .next t ∧
      (∀ k, k ≤ x → t.reg k = s.mem.read (s.i.toNat + k.toNat)) ∧
      t.i = (if cfg.indexAdvance then BitVec.ofNat 16 (s.i.toNat + x.toNat + 1) else s.i) ∧ t.pc = s.pc + 2#16 ∧
      FrameBut [.index, .pc] (fun y => y ≤ x) noByte s t) ∧
    (s.i.toNat + x.toNat ≥ cfg.memSize →
      run (.ldVxMem x) s = .next (faulted s .memoryOutOfBounds (formatX 0xF#4 x 0x65#8)))

/-- A block store then a block load at the same place gives back every register (R234, R235). -/
def Obligations.BlockStoreThenLoadRestores : Prop :=
  ∀ (x : RegIdx) (s : State), s.i.toNat + x.toNat < config.memSize → ∃ t u,
    exec (.ldMemVx x) s = .next t ∧ exec (.ldVxMem x) { t with v := Vector.replicate 16 0x00#8, i := s.i } = .next u ∧
    ∀ k, k ≤ x → u.reg k = s.reg k

/-- Self-modifying code: two or more registers stored over the next instruction are what the next fetch reads (R74, R351, the
spec's own inference from R71). -/
def Obligations.StoredCodeIsFetchedNext : Prop :=
  ∀ (x : RegIdx) (s : State), 0x1#4 ≤ x → s.i = s.pc + 2#16 → s.i.toNat + x.toNat < config.memSize →
    ∃ t, exec (.ldMemVx x) s = .next t ∧ t.fetch config = some (wordOfBytes (s.reg 0x0#4) (s.reg 0x1#4))

/-! ### Timers and keys -/

/-- LD Vx,DT; LD DT,Vx; LD ST,Vx (R250, R251, R252). -/
def Obligations.TimerMoves : Prop :=
  ∀ (x : RegIdx) (s : State),
    encode (.ldVxDt x) = formatX 0xF#4 x 0x07#8 ∧ encode (.ldDtVx x) = formatX 0xF#4 x 0x15#8 ∧
    encode (.ldStVx x) = formatX 0xF#4 x 0x18#8 ∧
    (∃ t, exec (.ldVxDt x) s = .next t ∧ PlainResult s t x s.dt) ∧
    (∃ t, exec (.ldDtVx x) s = .next t ∧ t.dt = s.reg x ∧ t.pc = s.pc + 2#16 ∧ FrameBut [.dt, .pc] noReg noByte s t) ∧
    (∃ t, exec (.ldStVx x) s = .next t ∧ t.st = s.reg x ∧ t.pc = s.pc + 2#16 ∧
      t.soundActive = decide (s.reg x ≠ 0x00#8) ∧ FrameBut [.st, .pc] noReg noByte s t)

/-- SKP and SKNP test the key the register names; a value past 15 names none (R253, R254, R256; D37). -/
def Obligations.KeySkips : Prop :=
  ∀ (x : RegIdx) (s : State), ∃ t u, exec (.skpVx x) s = .next t ∧ exec (.sknpVx x) s = .next u ∧
    (KeyNamed s (s.reg x) → JumpResult s t (s.pc + 4#16) ∧ JumpResult s u (s.pc + 2#16)) ∧
    (¬ KeyNamed s (s.reg x) → JumpResult s t (s.pc + 2#16) ∧ JumpResult s u (s.pc + 4#16))

/-- LD Vx,K: the lowest held key at once, or the wait with `PC` unchanged (R255). -/
def Obligations.WaitForKeyResult : Prop :=
  ∀ (x : RegIdx) (s : State),
    encode (.ldVxK x) = formatX 0xF#4 x 0x0A#8 ∧
    (∀ k, LowestKey s k → ∃ t, exec (.ldVxK x) s = .next t ∧ (t.reg x).toNat = k.val ∧ t.pc = s.pc + 2#16 ∧
      FrameBut [.pc] (fun y => y = x) noByte s t) ∧
    (¬ AnyKey s → ∃ t, exec (.ldVxK x) s = .next t ∧ t.waitX = x ∧ t.runState = .waitingForKey ∧
      FrameBut [.waitX, .runState] noReg noByte s t)

/-! ### Display -/

/-- CLS: every cell false, `Dirty` set whatever it was (R150; D32). -/
def Obligations.ClearScreenResult : Prop :=
  encode .cls = 0x00E0#16 ∧
  ∀ s : State, ∃ t, exec .cls s = .next t ∧ (∀ p, t.disp.lit p = false) ∧ t.dirty = true ∧ t.pc = s.pc + 2#16 ∧
    FrameBut [.disp, .dirty, .pc] noReg noByte s t

/-- DRW in closed form, under either edge policy: a cell is toggled exactly when the sprite has a set bit on it, `VF` is 1 exactly
when some toggled cell was lit, `Dirty` is set, and out of bounds nothing is drawn (R152 to R157; D4, D8, D9, D10, D32). -/
def Obligations.DrawTogglesExactlyTheSprite : Prop :=
  EveryRun fun cfg run => ∀ (x y : RegIdx) (n : Nibble) (s : State),
    (n = 0x0#4 ∨ s.i.toNat + n.toNat - 1 < cfg.memSize → ∃ t, run (.drwVxVyN x y n) s = .next t ∧
      (∀ p, t.disp.lit p = (s.disp.lit p ^^ spriteCovers cfg s x y n p)) ∧
      ((∃ p, spriteCovers cfg s x y n p = true ∧ s.disp.lit p = true) → t.reg vf = 1#8) ∧
      ((∀ p, spriteCovers cfg s x y n p = true → s.disp.lit p = false) → t.reg vf = 0#8) ∧
      t.dirty = true ∧ t.pc = s.pc + 2#16 ∧ FrameBut [.disp, .dirty, .pc] (fun r => r = vf) noByte s t) ∧
    (n ≠ 0x0#4 → s.i.toNat + n.toNat - 1 ≥ cfg.memSize →
      run (.drwVxVyN x y n) s = .next (faulted s .memoryOutOfBounds (formatXYN 0xD#4 x y n)))

/-- Drawing the same sprite twice at the same place restores the display (vector DR3; from R152): for every operand with `VF`
put back before the second draw, and without that where neither operand is `VF`. -/
def Obligations.DrawingTwiceRestoresTheDisplay : Prop :=
  ∀ (x y : RegIdx) (n : Nibble) (s : State), n = 0x0#4 ∨ s.i.toNat + n.toNat - 1 < config.memSize → ∃ t u w,
    exec (.drwVxVyN x y n) s = .next t ∧
    exec (.drwVxVyN x y n) { t with v := s.v } = .next u ∧ u.disp = s.disp ∧
    exec (.drwVxVyN x y n) t = .next w ∧ (x ≠ vf → y ≠ vf → w.disp = s.disp)

/-- The first draw after CLS never collides (S2; doc00 section 8, quoted in R150). -/
def Obligations.FirstDrawAfterClearNeverCollides : Prop :=
  ∀ (x y : RegIdx) (n : Nibble) (s : State), n = 0x0#4 ∨ s.i.toNat + n.toNat - 1 < config.memSize → ∃ t u,
    exec .cls s = .next t ∧ exec (.drwVxVyN x y n) t = .next u ∧ u.reg vf = 0#8

/-! ### The invariant -/

/-- The invariant holds after reset. -/
def Obligations.ResetMeetsTheInvariant : Prop := Inv State.reset

/-- Every step keeps the invariant: memory's form, `Halted` with its justified record, the stack's entries, the bound of `PC`
(R20, R31, R40, R121, R126, R305; the bound 0x10FE is the model's reading, notes/assumptions/7.md). -/
def Obligations.StepKeepsTheInvariant : Prop := ∀ s t : State, Inv s → step s = .next t → Inv t

/-- So does every operation of the host (R45, R46). -/
def Obligations.EveryHostCallKeepsTheInvariant : Prop :=
  ∀ (call : HostCall) (s t : State) (r : Reply), Inv s → perform call s = .next (r, t) → Inv t

/-! ### The host's operations -/

/-- `reset` in any state leaves every item at its reset value (R340; D2, D3, D23, D32; the count of oracle draws is the model's own
field and is kept, notes/assumptions/2.md), and `State.reset` is that state. -/
def Obligations.ResetRestoresEveryItem : Prop :=
  ∀ s : State, ∃ t, perform .reset s = .next (.nothing, t) ∧ t = { State.reset with draws := s.draws } ∧
    t.mem.readBytes 0 40 =
      [0xF0#8, 0x90#8, 0x90#8, 0x90#8, 0xF0#8, 0x20#8, 0x60#8, 0x20#8, 0x20#8, 0x70#8] ++
      [0xF0#8, 0x10#8, 0xF0#8, 0x80#8, 0xF0#8, 0xF0#8, 0x10#8, 0xF0#8, 0x10#8, 0xF0#8] ++
      [0x90#8, 0x90#8, 0xF0#8, 0x10#8, 0x10#8, 0xF0#8, 0x80#8, 0xF0#8, 0x10#8, 0xF0#8] ++
      [0xF0#8, 0x80#8, 0xF0#8, 0x90#8, 0xF0#8, 0xF0#8, 0x10#8, 0x20#8, 0x40#8, 0x40#8] ∧
    t.mem.readBytes 40 40 =
      [0xF0#8, 0x90#8, 0xF0#8, 0x90#8, 0xF0#8, 0xF0#8, 0x90#8, 0xF0#8, 0x10#8, 0xF0#8] ++
      [0xF0#8, 0x90#8, 0xF0#8, 0x90#8, 0x90#8, 0xE0#8, 0x90#8, 0xE0#8, 0x90#8, 0xE0#8] ++
      [0xF0#8, 0x80#8, 0x80#8, 0x80#8, 0xF0#8, 0xE0#8, 0x90#8, 0x90#8, 0x90#8, 0xE0#8] ++
      [0xF0#8, 0x80#8, 0xF0#8, 0x80#8, 0xF0#8, 0xF0#8, 0x80#8, 0xF0#8, 0x80#8, 0x80#8] ∧
    (∀ a, 80 ≤ a → t.mem.read a = 0x00#8) ∧ (∀ y, t.reg y = 0x00#8) ∧ t.i = 0x0000#16 ∧ t.pc = 0x0200#16 ∧
    (∀ (k : Nat) (hk : k < 16), t.stack[k] = 0x0000#16) ∧ t.sp.val = 0 ∧ t.dt = 0x00#8 ∧ t.st = 0x00#8 ∧
    (∀ p, t.disp.lit p = false) ∧ t.dirty = true ∧ ¬ AnyKey t ∧ t.runState = .running ∧ t.waitX = 0x0#4 ∧
    t.cycles = 0 ∧ t.diag = none

/-- Any number of ticks counts each timer down by as many, floored at 0, in every run state, and changes nothing else (R320; the
run states are D28). -/
def Obligations.TicksCountDownToZero : Prop :=
  ∀ (k : Nat) (s : State), ∃ rs t, performAll (List.replicate k .tick) s = .next (rs, t) ∧
    t.dt.toNat = s.dt.toNat - k ∧ t.st.toNat = s.st.toNat - k ∧ t = { s with dt := t.dt, st := t.st }

/-- `load` writes all of a sequence that fits, and nothing else; one that does not fit is rejected and nothing changes. At every
configuration (R307, R346; D29). -/
def Obligations.LoadIsAllOrNothing : Prop :=
  ∀ (cfg : Config) (bytes : List Byte) (offset : Word) (s : State),
    (offset.toNat + bytes.length ≤ cfg.memSize → ∃ t, performIn cfg (.load bytes offset) s = .next (.loaded .ok, t) ∧
      (∀ j, j < bytes.length → bytes[j]? = some (t.mem.read (offset.toNat + j))) ∧
      FrameBut [] noReg (bytesFrom offset.toNat bytes.length) s t) ∧
    (offset.toNat + bytes.length > cfg.memSize →
      performIn cfg (.load bytes offset) s = .next (.loaded .loadOutOfBounds, s))

/-- `set_key` writes one key (R323; D38: the model has no call with an index past 15). -/
def Obligations.SetKeyWritesOneKey : Prop :=
  ∀ (k : Fin 16) (b : Bool) (s : State), ∃ t, perform (.setKey k b) s = .next (.nothing, t) ∧
    t.key[k.val] = b ∧ (∀ j : Fin 16, j ≠ k → t.key[j.val] = s.key[j.val]) ∧ t = { s with key := t.key }

/-- `flush` hands a dirty buffer over and clears the flag; a clean one gives nothing and changes nothing (R324; D36). -/
def Obligations.FlushHandsOverOnce : Prop :=
  ∀ s : State,
    (s.dirty = true → perform .flush s = .next (.flushed (some s.disp), { s with dirty := false })) ∧
    (s.dirty = false → perform .flush s = .next (.flushed none, s))

/-- The read-only operations report the state and change nothing (R306, R322, R325). -/
def Obligations.ReadOnlyCallsChangeNothing : Prop :=
  ∀ s : State,
    perform .view s = .next (.viewed s.disp s.dirty, s) ∧
    perform .isHalted s = .next (.halted (decide (s.runState = .halted)), s) ∧
    perform .diagnostics s = .next (.diagnosed s.diag, s) ∧
    perform .soundActive s = .next (.sound (decide (s.st ≠ 0x00#8)), s)

/-- Any sequence of host operations, in any order, answers: no run ends in a stop of the model (R46, R347). -/
def Obligations.EveryHostSequenceAnswers : Prop :=
  ∀ (calls : List HostCall) (s : State), ∃ rs t, performAll calls s = .next (rs, t) ∧ rs.length = calls.length
end

