-- ==== Sys2Proof/Laws/Decode.lean ====
section
/-! SUPPORT. The fields of a word laid out in each format are the ones it was laid out from. -/

namespace Sys2Proof

theorem toNat_formatA (c : Nibble) (a : Addr) : (formatA c a).toNat = c.toNat * 4096 + a.toNat := by
  have := a.isLt
  simp only [formatA, BitVec.toNat_append, Nat.shiftLeft_eq]
  rw [← Nat.shiftLeft_eq, ← Nat.shiftLeft_add_eq_or_of_lt (by omega), Nat.shiftLeft_eq]

theorem toNat_formatXK (c : Nibble) (x : RegIdx) (k : Byte) :
    (formatXK c x k).toNat = c.toNat * 4096 + x.toNat * 256 + k.toNat := by
  have := k.isLt; have := x.isLt
  simp only [formatXK, BitVec.toNat_append]
  rw [← Nat.shiftLeft_add_eq_or_of_lt (b := x.toNat) (by omega), ← Nat.shiftLeft_add_eq_or_of_lt (by omega),
    Nat.shiftLeft_eq, Nat.shiftLeft_eq]
  omega

theorem toNat_formatXYN (c : Nibble) (x y : RegIdx) (n : Nibble) :
    (formatXYN c x y n).toNat = c.toNat * 4096 + x.toNat * 256 + y.toNat * 16 + n.toNat := by
  have := n.isLt; have := x.isLt; have := y.isLt
  simp only [formatXYN, BitVec.toNat_append]
  rw [← Nat.shiftLeft_add_eq_or_of_lt (b := x.toNat) (by omega), ← Nat.shiftLeft_add_eq_or_of_lt (b := y.toNat) (by omega),
    ← Nat.shiftLeft_add_eq_or_of_lt (by omega), Nat.shiftLeft_eq, Nat.shiftLeft_eq, Nat.shiftLeft_eq]
  omega

theorem formatX_eq (c : Nibble) (x : RegIdx) (k : Byte) : formatX c x k = formatXK c x k := rfl

theorem toNat_fieldClass (w : Word) : (fieldClass w).toNat = w.toNat / 4096 := by
  have := w.isLt
  simp [fieldClass, BitVec.extractLsb'_toNat, Nat.shiftRight_eq_div_pow]; omega

theorem toNat_fieldX (w : Word) : (fieldX w).toNat = w.toNat / 256 % 16 := by
  simp [fieldX, BitVec.extractLsb'_toNat, Nat.shiftRight_eq_div_pow]

theorem toNat_fieldY (w : Word) : (fieldY w).toNat = w.toNat / 16 % 16 := by
  simp [fieldY, BitVec.extractLsb'_toNat, Nat.shiftRight_eq_div_pow]

theorem toNat_fieldN (w : Word) : (fieldN w).toNat = w.toNat % 16 := by
  simp [fieldN, BitVec.extractLsb'_toNat]

theorem toNat_fieldKk (w : Word) : (fieldKk w).toNat = w.toNat % 256 := by
  simp [fieldKk, BitVec.extractLsb'_toNat]

theorem toNat_fieldNnn (w : Word) : (fieldNnn w).toNat = w.toNat % 4096 := by
  simp [fieldNnn, BitVec.extractLsb'_toNat]

/-! ### Format `A` -/

@[simp] theorem fieldClass_formatA (c : Nibble) (a : Addr) : fieldClass (formatA c a) = c := by
  apply BitVec.eq_of_toNat_eq
  have := a.isLt
  rw [toNat_fieldClass, toNat_formatA]; omega

@[simp] theorem fieldNnn_formatA (c : Nibble) (a : Addr) : fieldNnn (formatA c a) = a := by
  apply BitVec.eq_of_toNat_eq
  have := a.isLt
  rw [toNat_fieldNnn, toNat_formatA]; omega

/-! ### Formats `XK` and `X` -/

@[simp] theorem fieldClass_formatXK (c : Nibble) (x : RegIdx) (k : Byte) : fieldClass (formatXK c x k) = c := by
  apply BitVec.eq_of_toNat_eq
  have := k.isLt; have := x.isLt
  rw [toNat_fieldClass, toNat_formatXK]; omega

@[simp] theorem fieldX_formatXK (c : Nibble) (x : RegIdx) (k : Byte) : fieldX (formatXK c x k) = x := by
  apply BitVec.eq_of_toNat_eq
  have := k.isLt; have := x.isLt
  rw [toNat_fieldX, toNat_formatXK]; omega

@[simp] theorem fieldKk_formatXK (c : Nibble) (x : RegIdx) (k : Byte) : fieldKk (formatXK c x k) = k := by
  apply BitVec.eq_of_toNat_eq
  have := k.isLt; have := x.isLt
  rw [toNat_fieldKk, toNat_formatXK]; omega

/-! ### Formats `XY` and `XYN` -/

@[simp] theorem fieldClass_formatXYN (c : Nibble) (x y : RegIdx) (n : Nibble) : fieldClass (formatXYN c x y n) = c := by
  apply BitVec.eq_of_toNat_eq
  have := n.isLt; have := x.isLt; have := y.isLt
  rw [toNat_fieldClass, toNat_formatXYN]; omega

@[simp] theorem fieldX_formatXYN (c : Nibble) (x y : RegIdx) (n : Nibble) : fieldX (formatXYN c x y n) = x := by
  apply BitVec.eq_of_toNat_eq
  have := n.isLt; have := x.isLt; have := y.isLt
  rw [toNat_fieldX, toNat_formatXYN]; omega

@[simp] theorem fieldY_formatXYN (c : Nibble) (x y : RegIdx) (n : Nibble) : fieldY (formatXYN c x y n) = y := by
  apply BitVec.eq_of_toNat_eq
  have := n.isLt; have := x.isLt; have := y.isLt
  rw [toNat_fieldY, toNat_formatXYN]; omega

@[simp] theorem fieldN_formatXYN (c : Nibble) (x y : RegIdx) (n : Nibble) : fieldN (formatXYN c x y n) = n := by
  apply BitVec.eq_of_toNat_eq
  have := n.isLt; have := x.isLt; have := y.isLt
  rw [toNat_fieldN, toNat_formatXYN]; omega

/-! ### A word is its fields -/

theorem formatA_fields (w : Word) : formatA (fieldClass w) (fieldNnn w) = w := by
  apply BitVec.eq_of_toNat_eq
  have := w.isLt
  rw [toNat_formatA, toNat_fieldClass, toNat_fieldNnn]; omega

theorem formatXK_fields (w : Word) : formatXK (fieldClass w) (fieldX w) (fieldKk w) = w := by
  apply BitVec.eq_of_toNat_eq
  have := w.isLt
  rw [toNat_formatXK, toNat_fieldClass, toNat_fieldX, toNat_fieldKk]; omega

theorem formatXYN_fields (w : Word) : formatXYN (fieldClass w) (fieldX w) (fieldY w) (fieldN w) = w := by
  apply BitVec.eq_of_toNat_eq
  have := w.isLt
  rw [toNat_formatXYN, toNat_fieldClass, toNat_fieldX, toNat_fieldY, toNat_fieldN]; omega

/-! ### The masks of the opcode table -/

theorem and_maskF000 (w : Word) : w &&& 0xF000#16 = formatA (fieldClass w) 0x000#12 := by
  apply BitVec.eq_of_getLsbD_eq
  intro j hj
  rw [formatA]
  erw [BitVec.getLsbD_append]
  rw [fieldClass]
  interval_cases j <;> simp

theorem and_maskF00F (w : Word) : w &&& 0xF00F#16 = formatXYN (fieldClass w) 0x0#4 0x0#4 (fieldN w) := by
  apply BitVec.eq_of_getLsbD_eq
  intro j hj
  rw [formatXYN]
  erw [BitVec.getLsbD_append, BitVec.getLsbD_append, BitVec.getLsbD_append]
  rw [fieldClass, fieldN]
  interval_cases j <;> simp

theorem and_maskF0FF (w : Word) : w &&& 0xF0FF#16 = formatXK (fieldClass w) 0x0#4 (fieldKk w) := by
  apply BitVec.eq_of_getLsbD_eq
  intro j hj
  rw [formatXK]
  erw [BitVec.getLsbD_append, BitVec.getLsbD_append]
  rw [fieldClass, fieldKk]
  interval_cases j <;> simp

/-- Clearing the row-count field keeps the class and the registers. -/
theorem and_maskFFF0 (w : Word) : w &&& 0xFFF0#16 = formatXYN (fieldClass w) (fieldX w) (fieldY w) 0x0#4 := by
  apply BitVec.eq_of_getLsbD_eq
  intro j hj
  rw [formatXYN]
  erw [BitVec.getLsbD_append, BitVec.getLsbD_append, BitVec.getLsbD_append]
  rw [fieldClass, fieldX, fieldY]
  interval_cases j <;> simp

/-! ### Bytes -/

/-- A word is its two bytes, the high one first (R65). -/
@[simp] theorem wordOfBytes_highByte_lowByte (w : Word) : wordOfBytes (highByte w) (lowByte w) = w := by
  apply BitVec.eq_of_toNat_eq
  have := w.isLt
  simp only [wordOfBytes, highByte, lowByte, BitVec.toNat_append]
  rw [← Nat.shiftLeft_add_eq_or_of_lt (BitVec.isLt _), Nat.shiftLeft_eq]
  simp [BitVec.extractLsb'_toNat, Nat.shiftRight_eq_div_pow]; omega

@[simp] theorem highByte_wordOfBytes (hi lo : Byte) : highByte (wordOfBytes hi lo) = hi := by
  apply BitVec.eq_of_toNat_eq
  have := hi.isLt; have := lo.isLt
  simp only [wordOfBytes, highByte, BitVec.extractLsb'_toNat, BitVec.toNat_append]
  rw [← Nat.shiftLeft_add_eq_or_of_lt (BitVec.isLt _), Nat.shiftLeft_eq]
  simp [Nat.shiftRight_eq_div_pow]; omega

@[simp] theorem lowByte_wordOfBytes (hi lo : Byte) : lowByte (wordOfBytes hi lo) = lo := by
  apply BitVec.eq_of_toNat_eq
  have := hi.isLt; have := lo.isLt
  simp only [wordOfBytes, lowByte, BitVec.extractLsb'_toNat, BitVec.toNat_append]
  rw [← Nat.shiftLeft_add_eq_or_of_lt (BitVec.isLt _), Nat.shiftLeft_eq]
  simp; omega

end Sys2Proof
end

