-- ==== Sys2Proof/Laws/Display.lean ====
section
/-! SUPPORT. The laws of the display: one toggled cell, and a draw over cells no two of which are the same, which
the cells of a sprite are. -/

namespace Sys2Proof.Machine

theorem Display.lit_toggle (d : Display) (p q : Cell) :
    (d.toggle p).lit q = if q = p then !d.lit q else d.lit q := by
  obtain ⟨⟨r, hr⟩, ⟨c, hc⟩⟩ := p
  obtain ⟨⟨r', hr'⟩, ⟨c', hc'⟩⟩ := q
  simp only [Display.toggle, Display.lit, Vector.getElem_set, Prod.mk.injEq, Fin.mk.injEq]
  by_cases h1 : r = r' <;> by_cases h2 : c = c' <;> simp_all [eq_comm]

@[simp] theorem Display.lit_blank (p : Cell) : Display.blank.lit p = false := by
  simp [Display.blank, Display.lit]

/-- Displays whose cells agree are equal. -/
theorem Display.ext_lit {d d' : Display} (h : ∀ p, d.lit p = d'.lit p) : d = d' := by
  apply Vector.ext
  intro r hr
  apply Vector.ext
  intro c hc
  exact h (⟨r, hr⟩, ⟨c, hc⟩)

/-- A draw over distinct cells toggles exactly them, and reports whether one of them was lit before. -/
theorem drawCells_from (d : Display) (hit : Bool) (cells : List Cell) (h : cells.Nodup) :
    (∀ q, (cells.foldl drawCell (d, hit)).1.lit q = if q ∈ cells then !d.lit q else d.lit q) ∧
    (cells.foldl drawCell (d, hit)).2 = (hit || cells.any d.lit) := by
  induction cells generalizing d hit with
  | nil => simp
  | cons p rest ih =>
    obtain ⟨hp, hr⟩ := List.nodup_cons.mp h
    obtain ⟨ihd, ihh⟩ := ih (d.toggle p) (hit || d.lit p) hr
    refine ⟨fun q => ?_, ?_⟩
    · simp only [List.foldl_cons, drawCell, ihd, Display.lit_toggle, List.mem_cons]
      by_cases hq : q = p
      · subst hq; simp [hp]
      · simp [hq]
    · have hany : rest.any (d.toggle p).lit = rest.any d.lit := by
        rw [Bool.eq_iff_iff, List.any_eq_true, List.any_eq_true]
        constructor <;> rintro ⟨q, hq, hl⟩ <;> refine ⟨q, hq, ?_⟩ <;>
          simpa [Display.lit_toggle, show q ≠ p from fun e => hp (e ▸ hq)] using hl
      simp only [List.foldl_cons, drawCell, ihh, hany, List.any_cons, Bool.or_assoc]

theorem drawCells_spec (d : Display) (cells : List Cell) (h : cells.Nodup) :
    (∀ q, (drawCells d cells).1.lit q = if q ∈ cells then !d.lit q else d.lit q) ∧
    (drawCells d cells).2 = cells.any d.lit := by
  simpa [drawCells] using drawCells_from d false cells h

/-! ### The cells of a sprite -/

/-- The cells of one sprite row: those of its set bits that the edge policy keeps. -/
theorem mem_rowCells (edge row cx b p) : p ∈ rowCells edge row cx b ↔ ∃ k, k < 8 ∧ b.getLsbD (7-k) = true ∧ place edge row (cx+k) = some p := by
  simp only [rowCells, List.mem_filterMap, List.mem_range]
  constructor
  · rintro ⟨k, hk, h⟩
    split at h
    · exact ⟨k, hk, ‹_›, h⟩
    · cases h
  · rintro ⟨k, hk, h1, h2⟩
    exact ⟨k, hk, by rw [if_pos h1, h2]⟩

/-- The cells of a sprite: those of the set bits of its rows that the edge policy keeps. -/
theorem mem_spriteCells (edge cy cx bs p) : p ∈ spriteCells edge cy cx bs ↔ ∃ r k, r < bs.length ∧ k < 8 ∧ (bs.getD r 0#8).getLsbD (7-k) = true ∧ place edge (cy+r) (cx+k) = some p := by
  induction bs generalizing cy with
  | nil => simp [spriteCells]
  | cons b rest ih =>
    rw [spriteCells, List.mem_append, mem_rowCells, ih]
    constructor
    · rintro (⟨k, hk, h⟩ | ⟨r, k, hr, hk, h1, h2⟩)
      · exact ⟨0, k, by simp, hk, h⟩
      · exact ⟨r+1, k, by simpa using hr, hk, by simpa using h1, by rwa [show cy + (r+1) = cy+1+r by omega]⟩
    · rintro ⟨r, k, hr, hk, h1, h2⟩
      cases r with
      | zero => exact .inl ⟨k, hk, by simpa using h1, h2⟩
      | succ r => exact .inr ⟨r, k, by simpa using hr, hk, by simpa using h1, by rwa [show cy+1+r = cy + (r+1) by omega]⟩

/-- Two sprite cells fall on one display cell only when they are the same (R154). -/
theorem place_inj {edge cy cx r k r' k' p} (hr : r < 16) (hr' : r' < 16) (hk : k < 8) (hk' : k' < 8)
   (h : place edge (cy+r) (cx+k) = some p) (h' : place edge (cy+r') (cx+k') = some p) : r = r' ∧ k = k' := by
  cases edge with
  | wrap =>
    simp only [place, Option.some.injEq] at h h'
    rw [← h'] at h
    simp only [Prod.mk.injEq, Fin.mk.injEq] at h
    omega
  | clip =>
    simp only [place] at h h'
    split at h <;> [skip; cases h]
    split at h' <;> [skip; cases h']
    simp only [Option.some.injEq] at h h'
    rw [← h'] at h
    simp only [Prod.mk.injEq, Fin.mk.injEq] at h
    omega

theorem nodup_rowCells (edge row cx b) : (rowCells edge row cx b).Nodup := by
  unfold rowCells List.Nodup
  rw [List.pairwise_filterMap]
  refine List.Pairwise.imp_of_mem ?_ (List.nodup_range (n := 8))
  intro k k' hk hk' hne p hp p' hp' e
  subst e
  rw [List.mem_range] at hk hk'
  split at hp <;> [skip; cases hp]
  split at hp' <;> [skip; cases hp']
  exact hne (place_inj (cy := row) (r := 0) (r' := 0) (by omega) (by omega) hk hk' hp hp').2

/-- No cell is toggled twice in one draw of at most 16 rows (R154). -/
theorem nodup_spriteCells (edge cy cx bs) (h : bs.length ≤ 16) : (spriteCells edge cy cx bs).Nodup := by
  induction bs generalizing cy with
  | nil => exact List.nodup_nil
  | cons b rest ih =>
    simp at h
    rw [spriteCells, List.nodup_append]
    refine ⟨nodup_rowCells _ _ _ _, ih _ (by omega), ?_⟩
    rintro p hp q hq rfl
    rw [mem_rowCells] at hp
    rw [mem_spriteCells] at hq
    obtain ⟨k, hk, -, h1⟩ := hp
    obtain ⟨r, k', hr, hk', -, h2⟩ := hq
    rw [show cy + 1 + r = cy + (r+1) by omega] at h2
    have := (place_inj (r := 0) (by omega) (by omega) hk hk' h1 h2).1
    omega

end Sys2Proof.Machine
end

