-- ==== Sys2Proof/Laws/Memory.lean ====
section
/-! SUPPORT. The laws of memory: read after write, block reads and writes, and that every operation keeps the canonical form,
in which equal reads mean equal memories. -/

namespace Sys2Proof.Machine

/-! ### Reading one byte after writing one -/

theorem Memory.read_drop (m : Memory) (a a' : Nat) :
    (m.drop a).read a' = if a' = a then resetByte a else m.read a' := by
  induction m with
  | nil => by_cases h : a' = a <;> simp [Memory.drop, Memory.read, h]
  | cons c rest ih =>
    obtain ⟨k, d⟩ := c
    simp only [Memory.drop] at ih
    by_cases hk : k = a
    · simp only [Memory.drop, List.filter_cons, hk, bne_self_eq_false, Bool.false_eq_true, if_false, ih, Memory.read]
      split <;> rfl
    · have hk' : (k != a) = true := by simpa using hk
      simp only [Memory.drop, List.filter_cons, hk', if_true, Memory.read, ih]
      by_cases h : a' = k
      · rw [if_pos h, if_pos h, if_neg (by omega)]
      · rw [if_neg h, if_neg h]

theorem Memory.read_put (m : Memory) (a a' : Nat) (b : Byte) :
    (m.put a b).read a' = if a' = a then b else m.read a' := by
  induction m with
  | nil => simp [Memory.put, Memory.read]
  | cons c rest ih =>
    obtain ⟨k, d⟩ := c
    simp only [Memory.put]
    split
    · simp [Memory.read]
    · split
      · next h => subst h; simp only [Memory.read]; split <;> rfl
      · simp only [Memory.read, ih]
        by_cases h : a' = k
        · rw [if_pos h, if_pos h, if_neg (by omega)]
        · rw [if_neg h, if_neg h]

/-- Read after write, in every memory. -/
theorem Memory.read_write (m : Memory) (a a' : Nat) (b : Byte) :
    (m.write a b).read a' = if a' = a then b else m.read a' := by
  unfold Memory.write
  split
  · next h => rw [Memory.read_drop, h]
  · rw [Memory.read_put]

@[simp] theorem Memory.read_write_same (m : Memory) (a : Nat) (b : Byte) : (m.write a b).read a = b := by
  simp [Memory.read_write]

theorem Memory.read_write_other (m : Memory) {a a' : Nat} (b : Byte) (h : a' ≠ a) :
    (m.write a b).read a' = m.read a' := by
  simp [Memory.read_write, h]

@[simp] theorem Memory.read_nil (a : Nat) : Memory.read [] a = resetByte a := rfl

/-! ### Blocks -/

@[simp] theorem Memory.length_readBytes (m : Memory) (a n : Nat) : (m.readBytes a n).length = n := by
  induction n generalizing a with
  | zero => rfl
  | succ k ih => simp [Memory.readBytes, ih]

theorem Memory.getD_readBytes (m : Memory) (a n k : Nat) (d : Byte) :
    (m.readBytes a n).getD k d = if k < n then m.read (a + k) else d := by
  induction n generalizing a k with
  | zero => simp [Memory.readBytes]
  | succ n ih =>
    cases k with
    | zero => simp [Memory.readBytes]
    | succ k =>
      have h := ih (a + 1) k
      simp only [Memory.readBytes, List.getD_cons_succ, h, Nat.add_lt_add_iff_right]
      rw [show a + 1 + k = a + (k + 1) by omega]

/-- A block write stores the bytes in rising order and leaves every other address alone. -/
theorem Memory.read_writeBytes (m : Memory) (a : Nat) (bytes : List Byte) (a' : Nat) :
    (m.writeBytes a bytes).read a' =
      if a ≤ a' ∧ a' < a + bytes.length then bytes.getD (a' - a) 0x00#8 else m.read a' := by
  induction bytes generalizing m a with
  | nil => rw [if_neg (by simp only [List.length_nil]; omega)]; rfl
  | cons b rest ih =>
    rw [Memory.writeBytes, ih, Memory.read_write]
    simp only [List.length_cons]
    by_cases h0 : a' = a
    · subst h0; simp
    · by_cases h1 : a + 1 ≤ a' ∧ a' < a + 1 + rest.length
      · rw [if_pos h1, if_pos (by omega), show a' - a = (a' - (a + 1)) + 1 by omega]; rfl
      · rw [if_neg h1, if_neg h0, if_neg (by omega)]

theorem Memory.read_writeBytes_outside (m : Memory) {a : Nat} {bytes : List Byte} {a' : Nat}
    (h : ¬ (a ≤ a' ∧ a' < a + bytes.length)) : (m.writeBytes a bytes).read a' = m.read a' := by
  rw [Memory.read_writeBytes, if_neg h]

/-! ### The canonical form -/

theorem Memory.wfFrom_mono {size lo lo' : Nat} {m : Memory} (h : Memory.wfFrom size lo m = true) (hl : lo' ≤ lo) :
    Memory.wfFrom size lo' m = true := by
  cases m with
  | nil => rfl
  | cons c rest =>
    obtain ⟨a, b⟩ := c
    simp only [Memory.wfFrom, Bool.and_eq_true, decide_eq_true_eq] at h ⊢
    exact ⟨⟨⟨by omega, h.1.1.2⟩, h.1.2⟩, h.2⟩

theorem Memory.wfFrom_drop {size lo : Nat} {m : Memory} (a : Nat) (h : Memory.wfFrom size lo m = true) :
    Memory.wfFrom size lo (m.drop a) = true := by
  induction m generalizing lo with
  | nil => rfl
  | cons c rest ih =>
    obtain ⟨k, d⟩ := c
    simp only [Memory.wfFrom, Bool.and_eq_true, decide_eq_true_eq] at h
    have hr := ih h.2
    simp only [Memory.drop] at hr
    simp only [Memory.drop, List.filter_cons]
    split
    · simp only [Memory.wfFrom, Bool.and_eq_true, decide_eq_true_eq]
      exact ⟨h.1, hr⟩
    · exact Memory.wfFrom_mono hr (by omega)

theorem Memory.wfFrom_put {size lo a : Nat} {m : Memory} {b : Byte} (h : Memory.wfFrom size lo m = true)
    (hlo : lo ≤ a) (ha : a < size) (hb : b ≠ resetByte a) : Memory.wfFrom size lo (m.put a b) = true := by
  induction m generalizing lo with
  | nil => simp [Memory.put, Memory.wfFrom, hb, hlo, ha]
  | cons c rest ih =>
    obtain ⟨k, d⟩ := c
    simp only [Memory.wfFrom, Bool.and_eq_true, decide_eq_true_eq, bne_iff_ne] at h
    obtain ⟨⟨⟨hk, hks⟩, hd⟩, hr⟩ := h
    simp only [Memory.put]
    split
    · simp only [Memory.wfFrom, Bool.and_eq_true, decide_eq_true_eq, bne_iff_ne]
      exact ⟨⟨⟨hlo, ha⟩, hb⟩, ⟨⟨by omega, hks⟩, hd⟩, hr⟩
    · split
      · next h => subst h; simp [Memory.wfFrom, hlo, ha, hb, hr]
      · simp only [Memory.wfFrom, Bool.and_eq_true, decide_eq_true_eq, bne_iff_ne]
        exact ⟨⟨⟨hk, hks⟩, hd⟩, ih hr (by omega)⟩

theorem Memory.wfFrom_write {size lo a : Nat} {m : Memory} (b : Byte) (h : Memory.wfFrom size lo m = true)
    (hlo : lo ≤ a) (ha : a < size) : Memory.wfFrom size lo (m.write a b) = true := by
  unfold Memory.write
  split
  · exact Memory.wfFrom_drop a h
  · next hb => exact Memory.wfFrom_put h hlo ha hb

theorem Memory.wfFrom_writeBytes {size a : Nat} {m : Memory} (bytes : List Byte) (h : Memory.wfFrom size 0 m = true)
    (ha : a + bytes.length ≤ size) : Memory.wfFrom size 0 (m.writeBytes a bytes) = true := by
  induction bytes generalizing m a with
  | nil => exact h
  | cons b rest ih =>
    simp only [List.length_cons] at ha
    exact ih (Memory.wfFrom_write b h (Nat.zero_le _) (by omega)) (by omega)

/-- A byte written inside memory keeps the canonical form. -/
theorem Memory.wf_write {m : Memory} {a : Nat} (b : Byte) (h : m.wf = true) (ha : a < config.memSize) :
    (m.write a b).wf = true := Memory.wfFrom_write b h (Nat.zero_le _) ha

/-- A block written inside memory keeps the canonical form. -/
theorem Memory.wf_writeBytes {m : Memory} {a : Nat} (bytes : List Byte) (h : m.wf = true)
    (ha : a + bytes.length ≤ config.memSize) : (m.writeBytes a bytes).wf = true := Memory.wfFrom_writeBytes bytes h ha

@[simp] theorem Memory.wf_nil : Memory.wf [] = true := rfl

theorem Memory.read_below {size lo a : Nat} {m : Memory} (h : Memory.wfFrom size lo m = true) (ha : a < lo) :
    m.read a = resetByte a := by
  induction m generalizing lo with
  | nil => rfl
  | cons c rest ih =>
    obtain ⟨k, d⟩ := c
    simp only [Memory.wfFrom, Bool.and_eq_true, decide_eq_true_eq] at h
    rw [Memory.read, if_neg (by omega)]
    exact ih h.2 (by omega)

theorem Memory.eq_of_read_from {size lo : Nat} {m m' : Memory} (h : Memory.wfFrom size lo m = true)
    (h' : Memory.wfFrom size lo m' = true) (hr : ∀ a, m.read a = m'.read a) : m = m' := by
  induction m generalizing lo m' with
  | nil =>
    cases m' with
    | nil => rfl
    | cons c rest =>
      obtain ⟨k, d⟩ := c
      have := hr k
      simp [Memory.wfFrom, Memory.read] at h' this
      exact absurd this.symm h'.1.2
  | cons c rest ih =>
    obtain ⟨k, d⟩ := c
    have hm := h
    simp only [Memory.wfFrom, Bool.and_eq_true, decide_eq_true_eq, bne_iff_ne] at hm
    cases m' with
    | nil =>
      have := hr k
      simp [Memory.read] at this
      exact absurd this hm.1.2
    | cons c' rest' =>
      obtain ⟨k', d'⟩ := c'
      have hm' := h'
      simp only [Memory.wfFrom, Bool.and_eq_true, decide_eq_true_eq, bne_iff_ne] at hm'
      have hk : k = k' := by
        by_contra hne
        rcases Nat.lt_or_gt_of_ne hne with hlt | hlt
        · have e := hr k
          have low : Memory.read rest' k = resetByte k := Memory.read_below hm'.2 (by omega)
          simp only [Memory.read, if_true, if_neg hne, low] at e
          exact hm.1.2 e
        · have e := hr k'
          have low : Memory.read rest k' = resetByte k' := Memory.read_below hm.2 (by omega)
          simp only [Memory.read, if_true, if_neg (Ne.symm hne), low] at e
          exact hm'.1.2 e.symm
      subst hk
      have hd : d = d' := by simpa [Memory.read] using hr k
      subst hd
      refine congrArg _ (ih hm.2 hm'.2 fun a => ?_)
      by_cases ha : a = k
      · subst ha
        rw [Memory.read_below hm.2 (by omega), Memory.read_below hm'.2 (by omega)]
      · simpa [Memory.read, ha] using hr a

/-- In the canonical form, memories that read alike are equal. -/
theorem Memory.eq_of_read {m m' : Memory} (h : m.wf = true) (h' : m'.wf = true) (hr : ∀ a, m.read a = m'.read a) :
    m = m' := Memory.eq_of_read_from h h' hr

end Sys2Proof.Machine
end

