-- ==== Sys2Proof/Laws/State.lean ====
section
/-! SUPPORT. One lemma per field per update of the state, so that no proof unfolds a record update. -/

namespace Sys2Proof.Machine

variable (s : State)

/-! ### `setReg` -/

@[simp] theorem State.setReg_mem (x : RegIdx) (b : Byte) : (s.setReg x b).mem = s.mem := rfl
@[simp] theorem State.setReg_v (x : RegIdx) (b : Byte) : (s.setReg x b).v = s.v.set x.toNat b x.isLt := rfl
@[simp] theorem State.setReg_i (x : RegIdx) (b : Byte) : (s.setReg x b).i = s.i := rfl
@[simp] theorem State.setReg_pc (x : RegIdx) (b : Byte) : (s.setReg x b).pc = s.pc := rfl
@[simp] theorem State.setReg_stack (x : RegIdx) (b : Byte) : (s.setReg x b).stack = s.stack := rfl
@[simp] theorem State.setReg_sp (x : RegIdx) (b : Byte) : (s.setReg x b).sp = s.sp := rfl
@[simp] theorem State.setReg_dt (x : RegIdx) (b : Byte) : (s.setReg x b).dt = s.dt := rfl
@[simp] theorem State.setReg_st (x : RegIdx) (b : Byte) : (s.setReg x b).st = s.st := rfl
@[simp] theorem State.setReg_disp (x : RegIdx) (b : Byte) : (s.setReg x b).disp = s.disp := rfl
@[simp] theorem State.setReg_dirty (x : RegIdx) (b : Byte) : (s.setReg x b).dirty = s.dirty := rfl
@[simp] theorem State.setReg_key (x : RegIdx) (b : Byte) : (s.setReg x b).key = s.key := rfl
@[simp] theorem State.setReg_runState (x : RegIdx) (b : Byte) : (s.setReg x b).runState = s.runState := rfl
@[simp] theorem State.setReg_waitX (x : RegIdx) (b : Byte) : (s.setReg x b).waitX = s.waitX := rfl
@[simp] theorem State.setReg_cycles (x : RegIdx) (b : Byte) : (s.setReg x b).cycles = s.cycles := rfl
@[simp] theorem State.setReg_diag (x : RegIdx) (b : Byte) : (s.setReg x b).diag = s.diag := rfl
@[simp] theorem State.setReg_draws (x : RegIdx) (b : Byte) : (s.setReg x b).draws = s.draws := rfl

/-! ### `setRegs` -/

@[simp] theorem State.setRegs_mem (v : Vector Byte 16) : (s.setRegs v).mem = s.mem := rfl
@[simp] theorem State.setRegs_v (v : Vector Byte 16) : (s.setRegs v).v = v := rfl
@[simp] theorem State.setRegs_i (v : Vector Byte 16) : (s.setRegs v).i = s.i := rfl
@[simp] theorem State.setRegs_pc (v : Vector Byte 16) : (s.setRegs v).pc = s.pc := rfl
@[simp] theorem State.setRegs_stack (v : Vector Byte 16) : (s.setRegs v).stack = s.stack := rfl
@[simp] theorem State.setRegs_sp (v : Vector Byte 16) : (s.setRegs v).sp = s.sp := rfl
@[simp] theorem State.setRegs_dt (v : Vector Byte 16) : (s.setRegs v).dt = s.dt := rfl
@[simp] theorem State.setRegs_st (v : Vector Byte 16) : (s.setRegs v).st = s.st := rfl
@[simp] theorem State.setRegs_disp (v : Vector Byte 16) : (s.setRegs v).disp = s.disp := rfl
@[simp] theorem State.setRegs_dirty (v : Vector Byte 16) : (s.setRegs v).dirty = s.dirty := rfl
@[simp] theorem State.setRegs_key (v : Vector Byte 16) : (s.setRegs v).key = s.key := rfl
@[simp] theorem State.setRegs_runState (v : Vector Byte 16) : (s.setRegs v).runState = s.runState := rfl
@[simp] theorem State.setRegs_waitX (v : Vector Byte 16) : (s.setRegs v).waitX = s.waitX := rfl
@[simp] theorem State.setRegs_cycles (v : Vector Byte 16) : (s.setRegs v).cycles = s.cycles := rfl
@[simp] theorem State.setRegs_diag (v : Vector Byte 16) : (s.setRegs v).diag = s.diag := rfl
@[simp] theorem State.setRegs_draws (v : Vector Byte 16) : (s.setRegs v).draws = s.draws := rfl

/-! ### `setI` -/

@[simp] theorem State.setI_mem (a : Word) : (s.setI a).mem = s.mem := rfl
@[simp] theorem State.setI_v (a : Word) : (s.setI a).v = s.v := rfl
@[simp] theorem State.setI_i (a : Word) : (s.setI a).i = a := rfl
@[simp] theorem State.setI_pc (a : Word) : (s.setI a).pc = s.pc := rfl
@[simp] theorem State.setI_stack (a : Word) : (s.setI a).stack = s.stack := rfl
@[simp] theorem State.setI_sp (a : Word) : (s.setI a).sp = s.sp := rfl
@[simp] theorem State.setI_dt (a : Word) : (s.setI a).dt = s.dt := rfl
@[simp] theorem State.setI_st (a : Word) : (s.setI a).st = s.st := rfl
@[simp] theorem State.setI_disp (a : Word) : (s.setI a).disp = s.disp := rfl
@[simp] theorem State.setI_dirty (a : Word) : (s.setI a).dirty = s.dirty := rfl
@[simp] theorem State.setI_key (a : Word) : (s.setI a).key = s.key := rfl
@[simp] theorem State.setI_runState (a : Word) : (s.setI a).runState = s.runState := rfl
@[simp] theorem State.setI_waitX (a : Word) : (s.setI a).waitX = s.waitX := rfl
@[simp] theorem State.setI_cycles (a : Word) : (s.setI a).cycles = s.cycles := rfl
@[simp] theorem State.setI_diag (a : Word) : (s.setI a).diag = s.diag := rfl
@[simp] theorem State.setI_draws (a : Word) : (s.setI a).draws = s.draws := rfl
@[simp] theorem State.setI_reg (a : Word) (y : RegIdx) : (s.setI a).reg y = s.reg y := rfl

/-! ### `setPc` -/

@[simp] theorem State.setPc_mem (a : Word) : (s.setPc a).mem = s.mem := rfl
@[simp] theorem State.setPc_v (a : Word) : (s.setPc a).v = s.v := rfl
@[simp] theorem State.setPc_i (a : Word) : (s.setPc a).i = s.i := rfl
@[simp] theorem State.setPc_pc (a : Word) : (s.setPc a).pc = a := rfl
@[simp] theorem State.setPc_stack (a : Word) : (s.setPc a).stack = s.stack := rfl
@[simp] theorem State.setPc_sp (a : Word) : (s.setPc a).sp = s.sp := rfl
@[simp] theorem State.setPc_dt (a : Word) : (s.setPc a).dt = s.dt := rfl
@[simp] theorem State.setPc_st (a : Word) : (s.setPc a).st = s.st := rfl
@[simp] theorem State.setPc_disp (a : Word) : (s.setPc a).disp = s.disp := rfl
@[simp] theorem State.setPc_dirty (a : Word) : (s.setPc a).dirty = s.dirty := rfl
@[simp] theorem State.setPc_key (a : Word) : (s.setPc a).key = s.key := rfl
@[simp] theorem State.setPc_runState (a : Word) : (s.setPc a).runState = s.runState := rfl
@[simp] theorem State.setPc_waitX (a : Word) : (s.setPc a).waitX = s.waitX := rfl
@[simp] theorem State.setPc_cycles (a : Word) : (s.setPc a).cycles = s.cycles := rfl
@[simp] theorem State.setPc_diag (a : Word) : (s.setPc a).diag = s.diag := rfl
@[simp] theorem State.setPc_draws (a : Word) : (s.setPc a).draws = s.draws := rfl
@[simp] theorem State.setPc_reg (a : Word) (y : RegIdx) : (s.setPc a).reg y = s.reg y := rfl

/-! ### `advance` -/

@[simp] theorem State.advance_mem : (s.advance).mem = s.mem := rfl
@[simp] theorem State.advance_v : (s.advance).v = s.v := rfl
@[simp] theorem State.advance_i : (s.advance).i = s.i := rfl
@[simp] theorem State.advance_pc : (s.advance).pc = s.pc + 2#16 := rfl
@[simp] theorem State.advance_stack : (s.advance).stack = s.stack := rfl
@[simp] theorem State.advance_sp : (s.advance).sp = s.sp := rfl
@[simp] theorem State.advance_dt : (s.advance).dt = s.dt := rfl
@[simp] theorem State.advance_st : (s.advance).st = s.st := rfl
@[simp] theorem State.advance_disp : (s.advance).disp = s.disp := rfl
@[simp] theorem State.advance_dirty : (s.advance).dirty = s.dirty := rfl
@[simp] theorem State.advance_key : (s.advance).key = s.key := rfl
@[simp] theorem State.advance_runState : (s.advance).runState = s.runState := rfl
@[simp] theorem State.advance_waitX : (s.advance).waitX = s.waitX := rfl
@[simp] theorem State.advance_cycles : (s.advance).cycles = s.cycles := rfl
@[simp] theorem State.advance_diag : (s.advance).diag = s.diag := rfl
@[simp] theorem State.advance_draws : (s.advance).draws = s.draws := rfl
@[simp] theorem State.advance_reg (y : RegIdx) : (s.advance).reg y = s.reg y := rfl

/-! ### `skipIf` -/

@[simp] theorem State.skipIf_mem (c : Bool) : (s.skipIf c).mem = s.mem := rfl
@[simp] theorem State.skipIf_v (c : Bool) : (s.skipIf c).v = s.v := rfl
@[simp] theorem State.skipIf_i (c : Bool) : (s.skipIf c).i = s.i := rfl
@[simp] theorem State.skipIf_pc (c : Bool) : (s.skipIf c).pc = s.pc + if c then 4#16 else 2#16 := rfl
@[simp] theorem State.skipIf_stack (c : Bool) : (s.skipIf c).stack = s.stack := rfl
@[simp] theorem State.skipIf_sp (c : Bool) : (s.skipIf c).sp = s.sp := rfl
@[simp] theorem State.skipIf_dt (c : Bool) : (s.skipIf c).dt = s.dt := rfl
@[simp] theorem State.skipIf_st (c : Bool) : (s.skipIf c).st = s.st := rfl
@[simp] theorem State.skipIf_disp (c : Bool) : (s.skipIf c).disp = s.disp := rfl
@[simp] theorem State.skipIf_dirty (c : Bool) : (s.skipIf c).dirty = s.dirty := rfl
@[simp] theorem State.skipIf_key (c : Bool) : (s.skipIf c).key = s.key := rfl
@[simp] theorem State.skipIf_runState (c : Bool) : (s.skipIf c).runState = s.runState := rfl
@[simp] theorem State.skipIf_waitX (c : Bool) : (s.skipIf c).waitX = s.waitX := rfl
@[simp] theorem State.skipIf_cycles (c : Bool) : (s.skipIf c).cycles = s.cycles := rfl
@[simp] theorem State.skipIf_diag (c : Bool) : (s.skipIf c).diag = s.diag := rfl
@[simp] theorem State.skipIf_draws (c : Bool) : (s.skipIf c).draws = s.draws := rfl
@[simp] theorem State.skipIf_reg (c : Bool) (y : RegIdx) : (s.skipIf c).reg y = s.reg y := rfl

/-! ### `storeBytes` -/

@[simp] theorem State.storeBytes_mem (a : Nat) (bytes : List Byte) : (s.storeBytes a bytes).mem = s.mem.writeBytes a bytes := rfl
@[simp] theorem State.storeBytes_v (a : Nat) (bytes : List Byte) : (s.storeBytes a bytes).v = s.v := rfl
@[simp] theorem State.storeBytes_i (a : Nat) (bytes : List Byte) : (s.storeBytes a bytes).i = s.i := rfl
@[simp] theorem State.storeBytes_pc (a : Nat) (bytes : List Byte) : (s.storeBytes a bytes).pc = s.pc := rfl
@[simp] theorem State.storeBytes_stack (a : Nat) (bytes : List Byte) : (s.storeBytes a bytes).stack = s.stack := rfl
@[simp] theorem State.storeBytes_sp (a : Nat) (bytes : List Byte) : (s.storeBytes a bytes).sp = s.sp := rfl
@[simp] theorem State.storeBytes_dt (a : Nat) (bytes : List Byte) : (s.storeBytes a bytes).dt = s.dt := rfl
@[simp] theorem State.storeBytes_st (a : Nat) (bytes : List Byte) : (s.storeBytes a bytes).st = s.st := rfl
@[simp] theorem State.storeBytes_disp (a : Nat) (bytes : List Byte) : (s.storeBytes a bytes).disp = s.disp := rfl
@[simp] theorem State.storeBytes_dirty (a : Nat) (bytes : List Byte) : (s.storeBytes a bytes).dirty = s.dirty := rfl
@[simp] theorem State.storeBytes_key (a : Nat) (bytes : List Byte) : (s.storeBytes a bytes).key = s.key := rfl
@[simp] theorem State.storeBytes_runState (a : Nat) (bytes : List Byte) : (s.storeBytes a bytes).runState = s.runState := rfl
@[simp] theorem State.storeBytes_waitX (a : Nat) (bytes : List Byte) : (s.storeBytes a bytes).waitX = s.waitX := rfl
@[simp] theorem State.storeBytes_cycles (a : Nat) (bytes : List Byte) : (s.storeBytes a bytes).cycles = s.cycles := rfl
@[simp] theorem State.storeBytes_diag (a : Nat) (bytes : List Byte) : (s.storeBytes a bytes).diag = s.diag := rfl
@[simp] theorem State.storeBytes_draws (a : Nat) (bytes : List Byte) : (s.storeBytes a bytes).draws = s.draws := rfl
@[simp] theorem State.storeBytes_reg (a : Nat) (bytes : List Byte) (y : RegIdx) : (s.storeBytes a bytes).reg y = s.reg y := rfl

/-! ### `setDt` -/

@[simp] theorem State.setDt_mem (b : Byte) : (s.setDt b).mem = s.mem := rfl
@[simp] theorem State.setDt_v (b : Byte) : (s.setDt b).v = s.v := rfl
@[simp] theorem State.setDt_i (b : Byte) : (s.setDt b).i = s.i := rfl
@[simp] theorem State.setDt_pc (b : Byte) : (s.setDt b).pc = s.pc := rfl
@[simp] theorem State.setDt_stack (b : Byte) : (s.setDt b).stack = s.stack := rfl
@[simp] theorem State.setDt_sp (b : Byte) : (s.setDt b).sp = s.sp := rfl
@[simp] theorem State.setDt_dt (b : Byte) : (s.setDt b).dt = b := rfl
@[simp] theorem State.setDt_st (b : Byte) : (s.setDt b).st = s.st := rfl
@[simp] theorem State.setDt_disp (b : Byte) : (s.setDt b).disp = s.disp := rfl
@[simp] theorem State.setDt_dirty (b : Byte) : (s.setDt b).dirty = s.dirty := rfl
@[simp] theorem State.setDt_key (b : Byte) : (s.setDt b).key = s.key := rfl
@[simp] theorem State.setDt_runState (b : Byte) : (s.setDt b).runState = s.runState := rfl
@[simp] theorem State.setDt_waitX (b : Byte) : (s.setDt b).waitX = s.waitX := rfl
@[simp] theorem State.setDt_cycles (b : Byte) : (s.setDt b).cycles = s.cycles := rfl
@[simp] theorem State.setDt_diag (b : Byte) : (s.setDt b).diag = s.diag := rfl
@[simp] theorem State.setDt_draws (b : Byte) : (s.setDt b).draws = s.draws := rfl
@[simp] theorem State.setDt_reg (b : Byte) (y : RegIdx) : (s.setDt b).reg y = s.reg y := rfl

/-! ### `setSt` -/

@[simp] theorem State.setSt_mem (b : Byte) : (s.setSt b).mem = s.mem := rfl
@[simp] theorem State.setSt_v (b : Byte) : (s.setSt b).v = s.v := rfl
@[simp] theorem State.setSt_i (b : Byte) : (s.setSt b).i = s.i := rfl
@[simp] theorem State.setSt_pc (b : Byte) : (s.setSt b).pc = s.pc := rfl
@[simp] theorem State.setSt_stack (b : Byte) : (s.setSt b).stack = s.stack := rfl
@[simp] theorem State.setSt_sp (b : Byte) : (s.setSt b).sp = s.sp := rfl
@[simp] theorem State.setSt_dt (b : Byte) : (s.setSt b).dt = s.dt := rfl
@[simp] theorem State.setSt_st (b : Byte) : (s.setSt b).st = b := rfl
@[simp] theorem State.setSt_disp (b : Byte) : (s.setSt b).disp = s.disp := rfl
@[simp] theorem State.setSt_dirty (b : Byte) : (s.setSt b).dirty = s.dirty := rfl
@[simp] theorem State.setSt_key (b : Byte) : (s.setSt b).key = s.key := rfl
@[simp] theorem State.setSt_runState (b : Byte) : (s.setSt b).runState = s.runState := rfl
@[simp] theorem State.setSt_waitX (b : Byte) : (s.setSt b).waitX = s.waitX := rfl
@[simp] theorem State.setSt_cycles (b : Byte) : (s.setSt b).cycles = s.cycles := rfl
@[simp] theorem State.setSt_diag (b : Byte) : (s.setSt b).diag = s.diag := rfl
@[simp] theorem State.setSt_draws (b : Byte) : (s.setSt b).draws = s.draws := rfl
@[simp] theorem State.setSt_reg (b : Byte) (y : RegIdx) : (s.setSt b).reg y = s.reg y := rfl

/-! ### `paint` -/

@[simp] theorem State.paint_mem (d : Display) : (s.paint d).mem = s.mem := rfl
@[simp] theorem State.paint_v (d : Display) : (s.paint d).v = s.v := rfl
@[simp] theorem State.paint_i (d : Display) : (s.paint d).i = s.i := rfl
@[simp] theorem State.paint_pc (d : Display) : (s.paint d).pc = s.pc := rfl
@[simp] theorem State.paint_stack (d : Display) : (s.paint d).stack = s.stack := rfl
@[simp] theorem State.paint_sp (d : Display) : (s.paint d).sp = s.sp := rfl
@[simp] theorem State.paint_dt (d : Display) : (s.paint d).dt = s.dt := rfl
@[simp] theorem State.paint_st (d : Display) : (s.paint d).st = s.st := rfl
@[simp] theorem State.paint_disp (d : Display) : (s.paint d).disp = d := rfl
@[simp] theorem State.paint_dirty (d : Display) : (s.paint d).dirty = true := rfl
@[simp] theorem State.paint_key (d : Display) : (s.paint d).key = s.key := rfl
@[simp] theorem State.paint_runState (d : Display) : (s.paint d).runState = s.runState := rfl
@[simp] theorem State.paint_waitX (d : Display) : (s.paint d).waitX = s.waitX := rfl
@[simp] theorem State.paint_cycles (d : Display) : (s.paint d).cycles = s.cycles := rfl
@[simp] theorem State.paint_diag (d : Display) : (s.paint d).diag = s.diag := rfl
@[simp] theorem State.paint_draws (d : Display) : (s.paint d).draws = s.draws := rfl
@[simp] theorem State.paint_reg (d : Display) (y : RegIdx) : (s.paint d).reg y = s.reg y := rfl

/-! ### `waitForKey` -/

@[simp] theorem State.waitForKey_mem (x : RegIdx) : (s.waitForKey x).mem = s.mem := rfl
@[simp] theorem State.waitForKey_v (x : RegIdx) : (s.waitForKey x).v = s.v := rfl
@[simp] theorem State.waitForKey_i (x : RegIdx) : (s.waitForKey x).i = s.i := rfl
@[simp] theorem State.waitForKey_pc (x : RegIdx) : (s.waitForKey x).pc = s.pc := rfl
@[simp] theorem State.waitForKey_stack (x : RegIdx) : (s.waitForKey x).stack = s.stack := rfl
@[simp] theorem State.waitForKey_sp (x : RegIdx) : (s.waitForKey x).sp = s.sp := rfl
@[simp] theorem State.waitForKey_dt (x : RegIdx) : (s.waitForKey x).dt = s.dt := rfl
@[simp] theorem State.waitForKey_st (x : RegIdx) : (s.waitForKey x).st = s.st := rfl
@[simp] theorem State.waitForKey_disp (x : RegIdx) : (s.waitForKey x).disp = s.disp := rfl
@[simp] theorem State.waitForKey_dirty (x : RegIdx) : (s.waitForKey x).dirty = s.dirty := rfl
@[simp] theorem State.waitForKey_key (x : RegIdx) : (s.waitForKey x).key = s.key := rfl
@[simp] theorem State.waitForKey_runState (x : RegIdx) : (s.waitForKey x).runState = .waitingForKey := rfl
@[simp] theorem State.waitForKey_waitX (x : RegIdx) : (s.waitForKey x).waitX = x := rfl
@[simp] theorem State.waitForKey_cycles (x : RegIdx) : (s.waitForKey x).cycles = s.cycles := rfl
@[simp] theorem State.waitForKey_diag (x : RegIdx) : (s.waitForKey x).diag = s.diag := rfl
@[simp] theorem State.waitForKey_draws (x : RegIdx) : (s.waitForKey x).draws = s.draws := rfl
@[simp] theorem State.waitForKey_reg (x : RegIdx) (y : RegIdx) : (s.waitForKey x).reg y = s.reg y := rfl

/-! ### `resume` -/

@[simp] theorem State.resume_mem : (s.resume).mem = s.mem := rfl
@[simp] theorem State.resume_v : (s.resume).v = s.v := rfl
@[simp] theorem State.resume_i : (s.resume).i = s.i := rfl
@[simp] theorem State.resume_pc : (s.resume).pc = s.pc := rfl
@[simp] theorem State.resume_stack : (s.resume).stack = s.stack := rfl
@[simp] theorem State.resume_sp : (s.resume).sp = s.sp := rfl
@[simp] theorem State.resume_dt : (s.resume).dt = s.dt := rfl
@[simp] theorem State.resume_st : (s.resume).st = s.st := rfl
@[simp] theorem State.resume_disp : (s.resume).disp = s.disp := rfl
@[simp] theorem State.resume_dirty : (s.resume).dirty = s.dirty := rfl
@[simp] theorem State.resume_key : (s.resume).key = s.key := rfl
@[simp] theorem State.resume_runState : (s.resume).runState = .running := rfl
@[simp] theorem State.resume_waitX : (s.resume).waitX = s.waitX := rfl
@[simp] theorem State.resume_cycles : (s.resume).cycles = s.cycles := rfl
@[simp] theorem State.resume_diag : (s.resume).diag = s.diag := rfl
@[simp] theorem State.resume_draws : (s.resume).draws = s.draws := rfl
@[simp] theorem State.resume_reg (y : RegIdx) : (s.resume).reg y = s.reg y := rfl

/-! ### `countCycle` -/

@[simp] theorem State.countCycle_mem : (s.countCycle).mem = s.mem := rfl
@[simp] theorem State.countCycle_v : (s.countCycle).v = s.v := rfl
@[simp] theorem State.countCycle_i : (s.countCycle).i = s.i := rfl
@[simp] theorem State.countCycle_pc : (s.countCycle).pc = s.pc := rfl
@[simp] theorem State.countCycle_stack : (s.countCycle).stack = s.stack := rfl
@[simp] theorem State.countCycle_sp : (s.countCycle).sp = s.sp := rfl
@[simp] theorem State.countCycle_dt : (s.countCycle).dt = s.dt := rfl
@[simp] theorem State.countCycle_st : (s.countCycle).st = s.st := rfl
@[simp] theorem State.countCycle_disp : (s.countCycle).disp = s.disp := rfl
@[simp] theorem State.countCycle_dirty : (s.countCycle).dirty = s.dirty := rfl
@[simp] theorem State.countCycle_key : (s.countCycle).key = s.key := rfl
@[simp] theorem State.countCycle_runState : (s.countCycle).runState = s.runState := rfl
@[simp] theorem State.countCycle_waitX : (s.countCycle).waitX = s.waitX := rfl
@[simp] theorem State.countCycle_cycles : (s.countCycle).cycles = s.cycles + 1 := rfl
@[simp] theorem State.countCycle_diag : (s.countCycle).diag = s.diag := rfl
@[simp] theorem State.countCycle_draws : (s.countCycle).draws = s.draws := rfl
@[simp] theorem State.countCycle_reg (y : RegIdx) : (s.countCycle).reg y = s.reg y := rfl

/-! ### `countDraw` -/

@[simp] theorem State.countDraw_mem : (s.countDraw).mem = s.mem := rfl
@[simp] theorem State.countDraw_v : (s.countDraw).v = s.v := rfl
@[simp] theorem State.countDraw_i : (s.countDraw).i = s.i := rfl
@[simp] theorem State.countDraw_pc : (s.countDraw).pc = s.pc := rfl
@[simp] theorem State.countDraw_stack : (s.countDraw).stack = s.stack := rfl
@[simp] theorem State.countDraw_sp : (s.countDraw).sp = s.sp := rfl
@[simp] theorem State.countDraw_dt : (s.countDraw).dt = s.dt := rfl
@[simp] theorem State.countDraw_st : (s.countDraw).st = s.st := rfl
@[simp] theorem State.countDraw_disp : (s.countDraw).disp = s.disp := rfl
@[simp] theorem State.countDraw_dirty : (s.countDraw).dirty = s.dirty := rfl
@[simp] theorem State.countDraw_key : (s.countDraw).key = s.key := rfl
@[simp] theorem State.countDraw_runState : (s.countDraw).runState = s.runState := rfl
@[simp] theorem State.countDraw_waitX : (s.countDraw).waitX = s.waitX := rfl
@[simp] theorem State.countDraw_cycles : (s.countDraw).cycles = s.cycles := rfl
@[simp] theorem State.countDraw_diag : (s.countDraw).diag = s.diag := rfl
@[simp] theorem State.countDraw_draws : (s.countDraw).draws = s.draws + 1 := rfl
@[simp] theorem State.countDraw_reg (y : RegIdx) : (s.countDraw).reg y = s.reg y := rfl

/-! ### `takeFault` -/

@[simp] theorem State.takeFault_mem (k : FaultKind) (w : Word) : (s.takeFault k w).mem = s.mem := rfl
@[simp] theorem State.takeFault_v (k : FaultKind) (w : Word) : (s.takeFault k w).v = s.v := rfl
@[simp] theorem State.takeFault_i (k : FaultKind) (w : Word) : (s.takeFault k w).i = s.i := rfl
@[simp] theorem State.takeFault_pc (k : FaultKind) (w : Word) : (s.takeFault k w).pc = s.pc := rfl
@[simp] theorem State.takeFault_stack (k : FaultKind) (w : Word) : (s.takeFault k w).stack = s.stack := rfl
@[simp] theorem State.takeFault_sp (k : FaultKind) (w : Word) : (s.takeFault k w).sp = s.sp := rfl
@[simp] theorem State.takeFault_dt (k : FaultKind) (w : Word) : (s.takeFault k w).dt = s.dt := rfl
@[simp] theorem State.takeFault_st (k : FaultKind) (w : Word) : (s.takeFault k w).st = s.st := rfl
@[simp] theorem State.takeFault_disp (k : FaultKind) (w : Word) : (s.takeFault k w).disp = s.disp := rfl
@[simp] theorem State.takeFault_dirty (k : FaultKind) (w : Word) : (s.takeFault k w).dirty = s.dirty := rfl
@[simp] theorem State.takeFault_key (k : FaultKind) (w : Word) : (s.takeFault k w).key = s.key := rfl
@[simp] theorem State.takeFault_runState (k : FaultKind) (w : Word) : (s.takeFault k w).runState = .halted := rfl
@[simp] theorem State.takeFault_waitX (k : FaultKind) (w : Word) : (s.takeFault k w).waitX = s.waitX := rfl
@[simp] theorem State.takeFault_cycles (k : FaultKind) (w : Word) : (s.takeFault k w).cycles = s.cycles := rfl
@[simp] theorem State.takeFault_diag (k : FaultKind) (w : Word) : (s.takeFault k w).diag = some ⟨k, w, s.pc, s.cycles⟩ := rfl
@[simp] theorem State.takeFault_draws (k : FaultKind) (w : Word) : (s.takeFault k w).draws = s.draws := rfl
@[simp] theorem State.takeFault_reg (k : FaultKind) (w : Word) (y : RegIdx) : (s.takeFault k w).reg y = s.reg y := rfl

end Sys2Proof.Machine
end

