-- ==== Sys2Proof/Laws/Ops.lean ====
section
/-! SUPPORT. One lemma per shared operation that says once everything it can do. -/

namespace Sys2Proof.Machine

/-! ### Registers -/

theorem State.reg_setReg (s : State) (x y : RegIdx) (b : Byte) :
    (s.setReg x b).reg y = if y = x then b else s.reg y := by
  simp only [State.reg, State.setReg, Vector.getElem_set, BitVec.toNat_inj]
  by_cases h : y = x
  · simp [h]
  · simp [h, Ne.symm h]

@[simp] theorem State.reg_setReg_same (s : State) (x : RegIdx) (b : Byte) : (s.setReg x b).reg x = b := by
  simp [State.reg_setReg]

theorem State.reg_setReg_other (s : State) {x y : RegIdx} (b : Byte) (h : y ≠ x) :
    (s.setReg x b).reg y = s.reg y := by
  simp [State.reg_setReg, h]

/-- The flag is the last write, so it stays even in the destination's place. -/
theorem State.reg_setRegAndFlag (s : State) (x y : RegIdx) (r f : Byte) :
    (s.setRegAndFlag x r f).reg y = if y = vf then f else if y = x then r else s.reg y := by
  simp only [State.setRegAndFlag, State.reg_setReg]

/-- States whose registers read alike hold the same register file. -/
theorem State.v_ext {s t : State} (h : ∀ y, t.reg y = s.reg y) : t.v = s.v := by
  apply Vector.ext
  intro k hk
  have := h (BitVec.ofNat 4 k)
  simpa [State.reg, Nat.mod_eq_of_lt hk] using this

/-- A block load writes the bytes to the registers from `V[k]` in rising order and leaves every other register alone. -/
theorem getElem_loadRegs (v : Vector Byte 16) (k : Nat) (bytes : List Byte) (j : Nat) (hj : j < 16) :
    (loadRegs v k bytes)[j] = if k ≤ j ∧ j < k + bytes.length then bytes.getD (j - k) 0x00#8 else v[j] := by
  induction bytes generalizing v k with
  | nil => rw [if_neg (by simp only [List.length_nil]; omega)]; rfl
  | cons b rest ih =>
    rw [loadRegs, ih]
    simp only [List.length_cons]
    by_cases h0 : j = k
    · subst h0
      rw [if_neg (by omega), if_pos (by omega)]
      simp
    · by_cases h1 : k + 1 ≤ j ∧ j < k + 1 + rest.length
      · rw [if_pos h1, if_pos (by omega), show j - k = (j - (k + 1)) + 1 by omega]; rfl
      · rw [if_neg h1, if_neg (by omega)]
        simp [Ne.symm h0]

/-- The registers after a block load from memory. -/
theorem State.reg_loadRegs (s : State) (m : Memory) (a n : Nat) (y : RegIdx) :
    (s.setRegs (loadRegs s.v 0 (m.readBytes a n))).reg y = if y.toNat < n then m.read (a + y.toNat) else s.reg y := by
  simp only [State.reg, State.setRegs]
  rw [getElem_loadRegs]
  simp only [Memory.length_readBytes, Nat.zero_le, true_and, Nat.zero_add, Nat.sub_zero, Memory.getD_readBytes]
  split <;> rfl

/-- The bytes of a block store are the registers in rising order. -/
theorem blockRegs_getD (s : State) (x y : RegIdx) (h : y ≤ x) (d : Byte) :
    (blockRegs s x).getD y.toNat d = s.reg y := by
  have hy : y.toNat < 16 := y.isLt
  have hx : y.toNat ≤ x.toNat := BitVec.le_def.mp h
  simp [blockRegs, blockLength, State.reg, List.getD_eq_getElem?_getD,
    show y.toNat < x.toNat + 1 by omega, hy]

@[simp] theorem length_blockRegs (s : State) (x : RegIdx) : (blockRegs s x).length = x.toNat + 1 := by
  have : x.toNat < 16 := x.isLt
  simp [blockRegs, blockLength]; omega

@[simp] theorem length_bcdDigits (b : Byte) : (bcdDigits b).length = 3 := rfl

/-! ### Stack -/

theorem State.push_of_lt (s : State) (a : Word) (h : s.sp.val < 16) :
    s.push a = some { s with stack := s.stack.set s.sp.val a h, sp := ⟨s.sp.val + 1, by omega⟩ } := by
  simp [State.push, h]

theorem State.push_full (s : State) (a : Word) (h : s.sp.val = 16) : s.push a = none := by
  simp [State.push, h]

/-- What a push that answers has done. -/
theorem State.push_eq_some {s t : State} {a : Word} (h : s.push a = some t) :
    ∃ hlt : s.sp.val < 16,
      t = { s with stack := s.stack.set s.sp.val a hlt, sp := ⟨s.sp.val + 1, by omega⟩ } := by
  unfold State.push at h
  split at h
  · exact ⟨‹_›, (Option.some.inj h).symm⟩
  · cases h

theorem State.push_eq_none {s : State} {a : Word} (h : s.push a = none) : s.sp.val = 16 := by
  unfold State.push at h
  split at h
  · cases h
  · omega

theorem State.pop_empty (s : State) (h : s.sp.val = 0) : s.pop = none := by
  simp [State.pop, h]

/-- What a pop that answers has done: the entry keeps its value. -/
theorem State.pop_eq_some {s t : State} {a : Word} (h : s.pop = some (a, t)) :
    ∃ _ : s.sp.val ≠ 0, a = s.stack[s.sp.val - 1]'(by omega) ∧ t = { s with sp := ⟨s.sp.val - 1, by omega⟩ } := by
  unfold State.pop at h
  split at h
  · cases h
  · next hpos =>
    injection h with h
    injection h with h1 h2
    exact ⟨hpos, h1.symm, h2.symm⟩

theorem State.pop_eq_none {s : State} (h : s.pop = none) : s.sp.val = 0 := by
  unfold State.pop at h
  split at h
  · assumption
  · cases h

/-! ### Bounds -/

theorem inBounds_iff (cfg : Config) (first count : Nat) :
    inBounds cfg first count = true ↔ count = 0 ∨ first + count ≤ cfg.memSize := by
  simp [inBounds]

/-! ### Fetch -/

theorem State.fetch_eq_some {cfg : Config} {s : State} {w : Word} (h : s.fetch cfg = some w) :
    s.pc.toNat + 1 < cfg.memSize ∧ w = wordOfBytes (s.mem.read s.pc.toNat) (s.mem.read (s.pc.toNat + 1)) := by
  unfold State.fetch at h
  split at h
  · exact ⟨‹_›, (Option.some.inj h).symm⟩
  · cases h

theorem State.fetchInstr_eq_ok {cfg : Config} {s : State} {i : Instr} (h : s.fetchInstr cfg = .ok i) :
    ∃ w, s.fetch cfg = some w ∧ decode cfg w = .instr i := by
  unfold State.fetchInstr at h
  split at h
  · cases h
  · next w hw =>
    split at h
    · cases h
    · next hd => cases h; exact ⟨w, hw, hd⟩

/-! ### Keys -/

/-- `lowestPressed` names the lowest pressed key. -/
theorem lowestPressed_eq_some {key : Vector Bool 16} {k : Fin 16} :
    lowestPressed key = some k ↔ key[k.val] = true ∧ ∀ j : Fin 16, j < k → key[j.val] = false := by
  unfold lowestPressed
  rw [List.find?_eq_some_iff_getElem]
  constructor
  · rintro ⟨hk, n, hn, hget, hbefore⟩
    simp only [List.getElem_finRange, Fin.cast_mk] at hget hbefore
    subst hget
    refine ⟨hk, fun j hj => ?_⟩
    have := hbefore j.val hj
    simpa using this
  · rintro ⟨hk, hbefore⟩
    refine ⟨hk, k.val, by simp, by simp, fun j hj => ?_⟩
    simp only [List.getElem_finRange, Fin.cast_mk]
    have := hbefore ⟨j, by omega⟩ hj
    simpa using this

/-- It answers none exactly when no key is pressed. -/
theorem lowestPressed_eq_none {key : Vector Bool 16} :
    lowestPressed key = none ↔ ∀ k : Fin 16, key[k.val] = false := by
  simp [lowestPressed, List.find?_eq_none]

@[simp] theorem keyByte_toNat (k : Fin 16) : (keyByte k).toNat = k.val := by
  have := k.isLt
  simp [keyByte, BitVec.toNat_ofNat]; omega

/-- A poll with a key pressed takes the lowest one. -/
theorem State.poll_some {s : State} {k : Fin 16} (h : lowestPressed s.key = some k) :
    s.poll = (s.setReg s.waitX (keyByte k)).advance.resume := by
  simp only [State.poll, h]

/-- A poll with none pressed changes nothing. -/
theorem State.poll_none {s : State} (h : lowestPressed s.key = none) : s.poll = s := by
  simp only [State.poll, h]

/-! ### Steps -/

theorem stepWith_halted {cfg : Config} {run : Instr → State → Answer} {s : State} (h : s.runState = .halted) :
    stepWith cfg run s = .next s := by
  simp [stepWith, h]

theorem stepWith_waiting {cfg : Config} {run : Instr → State → Answer} {s : State} (h : s.runState = .waitingForKey) :
    stepWith cfg run s = .next s.countCycle.poll := by
  simp [stepWith, h]

theorem stepWith_running_fault {cfg : Config} {run : Instr → State → Answer} {s : State} {k : FaultKind} {w : Word}
    (h : s.runState = .running) (hf : s.countCycle.fetchInstr cfg = .error (k, w)) :
    stepWith cfg run s = .next (s.countCycle.takeFault k w) := by
  simp [stepWith, h, hf]

theorem stepWith_running_ok {cfg : Config} {run : Instr → State → Answer} {s : State} {i : Instr}
    (h : s.runState = .running) (hf : s.countCycle.fetchInstr cfg = .ok i) :
    stepWith cfg run s = run i s.countCycle := by
  simp [stepWith, h, hf]

@[simp] theorem State.fetch_countCycle (cfg : Config) (s : State) : s.countCycle.fetch cfg = s.fetch cfg := rfl

@[simp] theorem State.fetchInstr_countCycle (cfg : Config) (s : State) :
    s.countCycle.fetchInstr cfg = s.fetchInstr cfg := rfl

end Sys2Proof.Machine
end

