-- ==== Sys2Proof/Laws/Interface.lean ====
section
/-! SUPPORT. One lemma per field the host's operations write, and what each of them can do. -/

namespace Sys2Proof.Machine

theorem toNat_countDown (b : Byte) : (countDown b).toNat = b.toNat - 1 := by
  unfold countDown
  split
  · next h => subst h; rfl
  · next h =>
    have h0 : b.toNat ≠ 0 := fun e => h (BitVec.eq_of_toNat_eq e)
    have := b.isLt
    rw [BitVec.toNat_sub]
    simp; omega

@[simp] theorem State.tick_dt (s : State) : s.tick.dt = countDown s.dt := rfl
@[simp] theorem State.tick_st (s : State) : s.tick.st = countDown s.st := rfl
@[simp] theorem State.tick_runState (s : State) : s.tick.runState = s.runState := rfl
@[simp] theorem State.tick_mem (s : State) : s.tick.mem = s.mem := rfl
@[simp] theorem State.tick_pc (s : State) : s.tick.pc = s.pc := rfl
@[simp] theorem State.tick_diag (s : State) : s.tick.diag = s.diag := rfl

theorem State.getElem_setKey (s : State) (k j : Fin 16) (b : Bool) :
    (s.setKey k b).key[j.val] = if j = k then b else s.key[j.val] := by
  simp only [State.setKey, Vector.getElem_set, Fin.val_inj]
  by_cases h : j = k
  · simp [h]
  · simp [h, Ne.symm h]

@[simp] theorem State.setKey_runState (s : State) (k : Fin 16) (b : Bool) : (s.setKey k b).runState = s.runState := rfl
@[simp] theorem State.setKey_mem (s : State) (k : Fin 16) (b : Bool) : (s.setKey k b).mem = s.mem := rfl
@[simp] theorem State.setKey_pc (s : State) (k : Fin 16) (b : Bool) : (s.setKey k b).pc = s.pc := rfl
@[simp] theorem State.setKey_diag (s : State) (k : Fin 16) (b : Bool) : (s.setKey k b).diag = s.diag := rfl

/-- A flush clears `Dirty` and changes nothing else. -/
theorem State.flush_state (s : State) : s.flush.2 = { s with dirty := false } := by
  unfold State.flush
  cases h : s.dirty with
  | true => rfl
  | false => cases s; simp_all

/-- A load that fits writes the bytes and nothing else. -/
theorem State.load_fits {cfg : Config} {s : State} {bytes : List Byte} {offset : Word}
    (h : offset.toNat + bytes.length ≤ cfg.memSize) : s.load cfg bytes offset = (.ok, s.storeBytes offset.toNat bytes) := by
  simp [State.load, h]

/-- A load that does not fit writes nothing. -/
theorem State.load_refused {cfg : Config} {s : State} {bytes : List Byte} {offset : Word}
    (h : ¬ offset.toNat + bytes.length ≤ cfg.memSize) : s.load cfg bytes offset = (.loadOutOfBounds, s) := by
  simp [State.load, h]

end Sys2Proof.Machine
end

