-- ==== Sys2Proof/Laws/PerInstr.lean ====
section
/-! SUPPORT. Statements made per instruction. `MatchesTable`: the word an instruction is encoded as has its row's `match` under
its row's `mask` (spec/opcode_table.json). -/

namespace Sys2Proof.Laws

/-- The encoded word lies in the instruction's row of the opcode table. -/
def MatchesTable.Statement (i : Instr) : Prop := encode i &&& tableMask i = tableMatch i

/-! ### One lemma per format -/

theorem formatA_masked {c : Nibble} {nnn : Addr} {m : Word} (h : formatA c 0x000#12 = m) :
    formatA c nnn &&& 0xF000#16 = m := by
  rw [and_maskF000, fieldClass_formatA, h]

theorem formatXK_masked {c : Nibble} {x : RegIdx} {kk : Byte} {m : Word} (h : formatA c 0x000#12 = m) :
    formatXK c x kk &&& 0xF000#16 = m := by
  rw [and_maskF000, fieldClass_formatXK, h]

theorem formatXYN_masked {c : Nibble} {x y : RegIdx} {n : Nibble} {m : Word} (h : formatA c 0x000#12 = m) :
    formatXYN c x y n &&& 0xF000#16 = m := by
  rw [and_maskF000, fieldClass_formatXYN, h]

theorem formatXYN_sub_masked {c : Nibble} {x y : RegIdx} {n : Nibble} {m : Word} (h : formatXYN c 0x0#4 0x0#4 n = m) :
    formatXYN c x y n &&& 0xF00F#16 = m := by
  rw [and_maskF00F, fieldClass_formatXYN, fieldN_formatXYN, h]

theorem formatX_masked {c : Nibble} {x : RegIdx} {sub : Byte} {m : Word} (h : formatXK c 0x0#4 sub = m) :
    formatX c x sub &&& 0xF0FF#16 = m := by
  rw [formatX_eq, and_maskF0FF, fieldClass_formatXK, fieldKk_formatXK, h]

/-! ### One lemma per instruction -/

theorem MatchesTable.cls : Statement .cls := show 0x00E0#16 &&& 0xFFFF#16 = 0x00E0#16 by decide

theorem MatchesTable.ret : Statement .ret := show 0x00EE#16 &&& 0xFFFF#16 = 0x00EE#16 by decide

theorem MatchesTable.sysNnn (nnn : Addr) : Statement (.sysNnn nnn) := formatA_masked rfl

theorem MatchesTable.jpNnn (nnn : Addr) : Statement (.jpNnn nnn) := formatA_masked rfl

theorem MatchesTable.callNnn (nnn : Addr) : Statement (.callNnn nnn) := formatA_masked rfl

theorem MatchesTable.seVxKk (x : RegIdx) (kk : Byte) : Statement (.seVxKk x kk) := formatXK_masked rfl

theorem MatchesTable.sneVxKk (x : RegIdx) (kk : Byte) : Statement (.sneVxKk x kk) := formatXK_masked rfl

theorem MatchesTable.seVxVy (x : RegIdx) (y : RegIdx) : Statement (.seVxVy x y) := formatXYN_masked rfl

theorem MatchesTable.ldVxKk (x : RegIdx) (kk : Byte) : Statement (.ldVxKk x kk) := formatXK_masked rfl

theorem MatchesTable.addVxKk (x : RegIdx) (kk : Byte) : Statement (.addVxKk x kk) := formatXK_masked rfl

theorem MatchesTable.ldVxVy (x : RegIdx) (y : RegIdx) : Statement (.ldVxVy x y) := formatXYN_sub_masked rfl

theorem MatchesTable.orVxVy (x : RegIdx) (y : RegIdx) : Statement (.orVxVy x y) := formatXYN_sub_masked rfl

theorem MatchesTable.andVxVy (x : RegIdx) (y : RegIdx) : Statement (.andVxVy x y) := formatXYN_sub_masked rfl

theorem MatchesTable.xorVxVy (x : RegIdx) (y : RegIdx) : Statement (.xorVxVy x y) := formatXYN_sub_masked rfl

theorem MatchesTable.addVxVy (x : RegIdx) (y : RegIdx) : Statement (.addVxVy x y) := formatXYN_sub_masked rfl

theorem MatchesTable.subVxVy (x : RegIdx) (y : RegIdx) : Statement (.subVxVy x y) := formatXYN_sub_masked rfl

theorem MatchesTable.shrVxVy (x : RegIdx) (y : RegIdx) : Statement (.shrVxVy x y) := formatXYN_sub_masked rfl

theorem MatchesTable.subnVxVy (x : RegIdx) (y : RegIdx) : Statement (.subnVxVy x y) := formatXYN_sub_masked rfl

theorem MatchesTable.shlVxVy (x : RegIdx) (y : RegIdx) : Statement (.shlVxVy x y) := formatXYN_sub_masked rfl

theorem MatchesTable.sneVxVy (x : RegIdx) (y : RegIdx) : Statement (.sneVxVy x y) := formatXYN_masked rfl

theorem MatchesTable.ldINnn (nnn : Addr) : Statement (.ldINnn nnn) := formatA_masked rfl

theorem MatchesTable.jpV0Nnn (nnn : Addr) : Statement (.jpV0Nnn nnn) := formatA_masked rfl

theorem MatchesTable.rndVxKk (x : RegIdx) (kk : Byte) : Statement (.rndVxKk x kk) := formatXK_masked rfl

theorem MatchesTable.drwVxVyN (x : RegIdx) (y : RegIdx) (n : Nibble) : Statement (.drwVxVyN x y n) := formatXYN_masked rfl

theorem MatchesTable.skpVx (x : RegIdx) : Statement (.skpVx x) := formatX_masked rfl

theorem MatchesTable.sknpVx (x : RegIdx) : Statement (.sknpVx x) := formatX_masked rfl

theorem MatchesTable.ldVxDt (x : RegIdx) : Statement (.ldVxDt x) := formatX_masked rfl

theorem MatchesTable.ldVxK (x : RegIdx) : Statement (.ldVxK x) := formatX_masked rfl

theorem MatchesTable.ldDtVx (x : RegIdx) : Statement (.ldDtVx x) := formatX_masked rfl

theorem MatchesTable.ldStVx (x : RegIdx) : Statement (.ldStVx x) := formatX_masked rfl

theorem MatchesTable.addIVx (x : RegIdx) : Statement (.addIVx x) := formatX_masked rfl

theorem MatchesTable.ldFVx (x : RegIdx) : Statement (.ldFVx x) := formatX_masked rfl

theorem MatchesTable.ldBVx (x : RegIdx) : Statement (.ldBVx x) := formatX_masked rfl

theorem MatchesTable.ldMemVx (x : RegIdx) : Statement (.ldMemVx x) := formatX_masked rfl

theorem MatchesTable.ldVxMem (x : RegIdx) : Statement (.ldVxMem x) := formatX_masked rfl

end Sys2Proof.Laws
end

