-- ==== Sys2Proof/Laws/Step.lean ====
section
/-! SUPPORT. The machine of this package is the configured machine at `config`; what a step can do; what a placed word does. -/

namespace Sys2Proof.Machine

theorem exec_eq_execIn (i : Instr) (s : State) : exec i s = execIn config i s := by
  cases i <;> rfl

theorem step_eq_stepIn (s : State) : step s = stepIn config s := by
  have h : exec = execIn config := funext fun i => funext fun t => exec_eq_execIn i t
  simp only [step, stepIn, h]

/-- Everything a step can do: stand still in `Halted`, poll, take a fetch or decode fault, or execute the instruction fetched
(spec/40_engine_cycle.md R120). -/
theorem step_cases (s : State) :
    (s.runState = .halted ∧ step s = .next s) ∨
    (s.runState = .waitingForKey ∧ step s = .next s.countCycle.poll) ∨
    (s.runState = .running ∧ s.fetch config = none ∧ step s = .next (s.countCycle.takeFault .memoryOutOfBounds 0x0000#16)) ∨
    (∃ w, s.runState = .running ∧ s.fetch config = some w ∧ decode config w = .unknownOpcode ∧
      step s = .next (s.countCycle.takeFault .unknownOpcode w)) ∨
    (∃ w i, s.runState = .running ∧ s.fetch config = some w ∧ decode config w = .instr i ∧
      step s = exec i s.countCycle) := by
  cases hr : s.runState with
  | halted => exact .inl ⟨rfl, stepWith_halted hr⟩
  | waitingForKey => exact .inr (.inl ⟨rfl, stepWith_waiting hr⟩)
  | running =>
    refine .inr (.inr ?_)
    cases hf : s.fetch config with
    | none => exact .inl ⟨rfl, rfl, stepWith_running_fault hr (by simp [State.fetchInstr, hf])⟩
    | some w =>
      refine .inr ?_
      cases hd : decode config w with
      | unknownOpcode => exact .inl ⟨w, rfl, rfl, hd, stepWith_running_fault hr (by simp [State.fetchInstr, hf, hd])⟩
      | instr i => exact .inr ⟨w, i, rfl, rfl, hd, stepWith_running_ok hr (by simp [State.fetchInstr, hf, hd])⟩

/-- Where a fetch can happen at all, the word placed is the word the next step fetches. -/
theorem fetch_withFetchWord (s : State) (w : Word) (h : s.pc.toNat + 1 < config.memSize) :
    (s.withFetchWord 16 w.toNat).fetch config = some w := by
  have hw : w.toNat % 2 ^ 16 = w.toNat := Nat.mod_eq_of_lt w.isLt
  simp only [State.withFetchWord, if_pos h, State.fetch, State.resume_pc, State.storeBytes_pc, State.resume_mem,
    State.storeBytes_mem, tableBytes, hw, BitVec.ofNat_toNat, BitVec.setWidth_eq, Memory.writeBytes]
  rw [Memory.read_write_other _ _ (by omega), Memory.read_write_same, Memory.read_write_same,
    wordOfBytes_highByte_lowByte]

end Sys2Proof.Machine
end

