-- ==== Sys2Proof/Laws/Safety.lean ====
section
/-! SUPPORT. The terms of Sys2Proof/Safety.lean over the shared operations: the frames of a register write, a flag write and a
jump, and what the key scan finds. -/

namespace Sys2Proof.Machine

/-! ### Frames -/

/-- A frame that lets less change holds where one that lets more change is asked for. -/
theorem FrameBut.mono {ps ps' : List Part} {d d' : RegIdx → Prop} {m m' : Nat → Prop} {s t : State}
    (h : FrameBut ps d m s t) (hp : ∀ p, p ∈ ps → p ∈ ps') (hd : ∀ y, d y → d' y) (hm : ∀ a, m a → m' a) :
    FrameBut ps' d' m' s t :=
  ⟨fun y hy => h.registers y fun c => hy (hd y c), fun a ha => h.memory a fun c => ha (hm a c),
    fun p hn => h.others p fun c => hn (hp p c)⟩

/-- Writing `V[x]` and advancing. -/
theorem plainResult_setReg (s : State) (x : RegIdx) (b : Byte) : PlainResult s (s.setReg x b).advance x b where
  result := State.reg_setReg_same s x b
  pc := rfl
  frame :=
    { registers := fun _ h => State.reg_setReg_other s b h
      memory := fun _ _ => rfl
      others := fun p h => by cases p <;> first | rfl | simp at h }

/-- Writing `V[x]`, then the flag, and advancing. -/
theorem flagResult_setRegAndFlag (s : State) (x : RegIdx) (b f : Byte) :
    FlagResult s (s.setRegAndFlag x b f).advance x b f where
  result := fun h => by
    show (s.setRegAndFlag x b f).reg x = b
    simp [State.reg_setRegAndFlag, h]
  flag := by
    show (s.setRegAndFlag x b f).reg vf = f
    simp [State.reg_setRegAndFlag]
  pc := rfl
  frame :=
    { registers := fun y h => by
        show (s.setRegAndFlag x b f).reg y = _
        simp only [not_or] at h
        simp [State.reg_setRegAndFlag, h]
      memory := fun _ _ => rfl
      others := fun p h => by cases p <;> first | rfl | simp at h }

/-- Setting `PC`. -/
theorem jumpResult_setPc (s : State) (a : Word) : JumpResult s (s.setPc a) a where
  pc := rfl
  frame :=
    { registers := fun _ _ => rfl
      memory := fun _ _ => rfl
      others := fun p h => by cases p <;> first | rfl | simp at h }

/-! ### Keys -/

theorem keyPressed_iff (s : State) (b : Byte) : keyPressed s.key b = true ↔ KeyNamed s b := by
  unfold keyPressed KeyNamed
  constructor
  · intro h
    split at h
    · exact ⟨⟨_, ‹_›⟩, rfl, h⟩
    · cases h
  · rintro ⟨k, hk, h⟩
    rw [dif_pos (by omega)]
    simpa [← hk] using h

theorem lowestPressed_some_iff (s : State) (k : Fin 16) : lowestPressed s.key = some k ↔ LowestKey s k :=
  lowestPressed_eq_some

theorem lowestPressed_none_iff (s : State) : lowestPressed s.key = none ↔ ¬ AnyKey s := by
  rw [lowestPressed_eq_none]
  simp [AnyKey]

/-! ### Fault conditions and runs -/

@[simp] theorem ownFault_countCycle (cfg : Config) (i : Instr) (s : State) :
    ownFault cfg i s.countCycle = ownFault cfg i s := by
  cases i <;> rfl

theorem runSteps_zero (s : State) : runSteps 0 s = .next s := rfl

/-- A run of `k + 1` steps whose first step answers. -/
theorem runSteps_succ {k : Nat} {s t : State} (h : step s = .next t) : runSteps (k + 1) s = runSteps k t := by
  simp only [runSteps, h]

end Sys2Proof.Machine
end

