-- ==== Sys2Proof/Machine/Assembly.lean ====
section
/-! DEFINITION. How an instruction is written (spec/30_encoding.md R104 to R107). No rule of the machine depends on it. -/

namespace Sys2Proof

/-- One upper-case hex digit. -/
def hexDigit (n : Nibble) : String :=
  match n with
  | 0x0#4 => "0" | 0x1#4 => "1" | 0x2#4 => "2" | 0x3#4 => "3"
  | 0x4#4 => "4" | 0x5#4 => "5" | 0x6#4 => "6" | 0x7#4 => "7"
  | 0x8#4 => "8" | 0x9#4 => "9" | 0xA#4 => "A" | 0xB#4 => "B"
  | 0xC#4 => "C" | 0xD#4 => "D" | 0xE#4 => "E" | _ => "F"

/-- A register's name, `V0` to `VF` (R106). -/
def asmReg (x : RegIdx) : String := "V" ++ hexDigit x

/-- A byte immediate, `#$hh` (R104). -/
def asmByte (b : Byte) : String := "#$" ++ hexDigit (b.extractLsb' 4 4) ++ hexDigit (b.extractLsb' 0 4)

/-- An address, `$nnn` (R104). -/
def asmAddr (a : Addr) : String :=
  "$" ++ hexDigit (a.extractLsb' 8 4) ++ hexDigit (a.extractLsb' 4 4) ++ hexDigit (a.extractLsb' 0 4)

/-- A mnemonic with two operands: one space, then the operands with a comma and no space between (R104). -/
def asmTwo (mnemonic a b : String) : String := mnemonic ++ " " ++ a ++ "," ++ b

/-- The text of an instruction (R107). -/
def asmText (i : Instr) : String :=
  match i with
  | .cls => "CLS"
  | .ret => "RET"
  | .sysNnn nnn => "SYS " ++ asmAddr nnn
  | .jpNnn nnn => "JP " ++ asmAddr nnn
  | .callNnn nnn => "CALL " ++ asmAddr nnn
  | .seVxKk x kk => asmTwo "SE" (asmReg x) (asmByte kk)
  | .sneVxKk x kk => asmTwo "SNE" (asmReg x) (asmByte kk)
  | .seVxVy x y => asmTwo "SE" (asmReg x) (asmReg y)
  | .ldVxKk x kk => asmTwo "LD" (asmReg x) (asmByte kk)
  | .addVxKk x kk => asmTwo "ADD" (asmReg x) (asmByte kk)
  | .ldVxVy x y => asmTwo "LD" (asmReg x) (asmReg y)
  | .orVxVy x y => asmTwo "OR" (asmReg x) (asmReg y)
  | .andVxVy x y => asmTwo "AND" (asmReg x) (asmReg y)
  | .xorVxVy x y => asmTwo "XOR" (asmReg x) (asmReg y)
  | .addVxVy x y => asmTwo "ADD" (asmReg x) (asmReg y)
  | .subVxVy x y => asmTwo "SUB" (asmReg x) (asmReg y)
  | .shrVxVy x y => asmTwo "SHR" (asmReg x) (asmReg y)
  | .subnVxVy x y => asmTwo "SUBN" (asmReg x) (asmReg y)
  | .shlVxVy x y => asmTwo "SHL" (asmReg x) (asmReg y)
  | .sneVxVy x y => asmTwo "SNE" (asmReg x) (asmReg y)
  | .ldINnn nnn => asmTwo "LD" "I" (asmAddr nnn)
  | .jpV0Nnn nnn => asmTwo "JP" "V0" (asmAddr nnn)
  | .rndVxKk x kk => asmTwo "RND" (asmReg x) (asmByte kk)
  | .drwVxVyN x y n => "DRW " ++ asmReg x ++ "," ++ asmReg y ++ ",#$" ++ hexDigit n
  | .skpVx x => "SKP " ++ asmReg x
  | .sknpVx x => "SKNP " ++ asmReg x
  | .ldVxDt x => asmTwo "LD" (asmReg x) "DT"
  | .ldVxK x => asmTwo "LD" (asmReg x) "K"
  | .ldDtVx x => asmTwo "LD" "DT" (asmReg x)
  | .ldStVx x => asmTwo "LD" "ST" (asmReg x)
  | .addIVx x => asmTwo "ADD" "I" (asmReg x)
  | .ldFVx x => asmTwo "LD" "F" (asmReg x)
  | .ldBVx x => asmTwo "LD" "B" (asmReg x)
  | .ldMemVx x => asmTwo "LD" "[I]" (asmReg x)
  | .ldVxMem x => asmTwo "LD" (asmReg x) "[I]"

end Sys2Proof
end

