-- ==== Sys2Proof/Tests/Slice0.lean ====
section
/-! SUPPORT. Tests of the model against the spec's own vectors (spec/95_test_vectors.md, the number of the vector in each
comment), words written out bit by bit from the encodings of spec/30_encoding.md, and for every statement with hypotheses a
concrete state that meets them. -/

namespace Sys2Proof.Tests

open Sys2Proof.Machine

/-! ### Helpers -/

/-- The state an answer leaves; the reset state where there is none. -/
def ran (a : Answer) : State :=
  match a with
  | .next t => t
  | .fault _ => State.reset
  | .refused _ => State.reset

/-- The state after reset with a word at an address. -/
def placed (a : Nat) (w : Word) : State := State.reset.storeBytes a [highByte w, lowByte w]

/-- The state after reset with a word at `PC`, and two registers set. -/
def with2 (w : Word) (x : RegIdx) (a : Byte) (y : RegIdx) (b : Byte) : State := ((placed 0x200 w).setReg x a).setReg y b

/-- No key is held but those listed. -/
def keys (l : List (Fin 16)) : Vector Bool 16 := Vector.ofFn fun k => l.contains k

/-- The spec's defaults with the other edge policy. -/
def clipped : Config := { Config.default with drawEdge := .clip }

/-- The spec's defaults with every other choice the other way. -/
def otherwise : Config :=
  { Config.default with indexAdvance := false, shiftSource := .vy, logicResetsVF := true, bnnnMode := .unknown }

/-! ### Well-formedness: an ill-formed term for each check -/

theorem test_wellFormed_refuses_sys_cls : (Instr.sysNnn 0x0E0#12).wellFormed Config.default = false := by decide

theorem test_wellFormed_refuses_sys_ret : (Instr.sysNnn 0x0EE#12).wellFormed Config.default = false := by decide

theorem test_wellFormed_refuses_jump_when_unknown : (Instr.jpV0Nnn 0x123#12).wellFormed otherwise = false := by decide

theorem test_wellFormed_accepts :
    (Instr.sysNnn 0x0E1#12).wellFormed Config.default = true ∧ (Instr.jpV0Nnn 0x123#12).wellFormed Config.default = true ∧
    (Instr.drwVxVyN 0xF#4 0xF#4 0xF#4).wellFormed otherwise = true := by decide

/-! ### Decoding: every constructor, from words written out from the patterns of R100 -/

theorem test_decode_control :
    decode config 0b0000000011100000#16 = .instr .cls ∧
    decode config 0b0000000011101110#16 = .instr .ret ∧
    decode config 0b0000111111101110#16 = .instr (.sysNnn 0xFEE#12) ∧
    decode config 0b0001101010111100#16 = .instr (.jpNnn 0xABC#12) ∧
    decode config 0b0010101010111100#16 = .instr (.callNnn 0xABC#12) ∧
    decode config 0b1011000100100011#16 = .instr (.jpV0Nnn 0x123#12) := by decide

theorem test_decode_skips :
    decode config 0b0011001100010010#16 = .instr (.seVxKk 0x3#4 0x12#8) ∧
    decode config 0b0100001100010010#16 = .instr (.sneVxKk 0x3#4 0x12#8) ∧
    decode config 0b0101000100100001#16 = .instr (.seVxVy 0x1#4 0x2#4) ∧
    decode config 0b1001000100101111#16 = .instr (.sneVxVy 0x1#4 0x2#4) ∧
    decode config 0b1110000010011110#16 = .instr (.skpVx 0x0#4) ∧
    decode config 0b1110000010100001#16 = .instr (.sknpVx 0x0#4) := by decide

theorem test_decode_immediates :
    decode config 0b0110101001011100#16 = .instr (.ldVxKk 0xA#4 0x5C#8) ∧
    decode config 0b0111000000000101#16 = .instr (.addVxKk 0x0#4 0x05#8) ∧
    decode config 0b1100001000001111#16 = .instr (.rndVxKk 0x2#4 0x0F#8) ∧
    decode config 0b1010001100000000#16 = .instr (.ldINnn 0x300#12) ∧
    decode config 0b1101000100100101#16 = .instr (.drwVxVyN 0x1#4 0x2#4 0x5#4) := by decide

theorem test_decode_class8 :
    decode config 0b1000000100100000#16 = .instr (.ldVxVy 0x1#4 0x2#4) ∧
    decode config 0b1000000100100001#16 = .instr (.orVxVy 0x1#4 0x2#4) ∧
    decode config 0b1000000100100010#16 = .instr (.andVxVy 0x1#4 0x2#4) ∧
    decode config 0b1000000100100011#16 = .instr (.xorVxVy 0x1#4 0x2#4) ∧
    decode config 0b1000000100100100#16 = .instr (.addVxVy 0x1#4 0x2#4) ∧
    decode config 0b1000000100100101#16 = .instr (.subVxVy 0x1#4 0x2#4) ∧
    decode config 0b1000000100100110#16 = .instr (.shrVxVy 0x1#4 0x2#4) ∧
    decode config 0b1000000100100111#16 = .instr (.subnVxVy 0x1#4 0x2#4) ∧
    decode config 0b1000000100101110#16 = .instr (.shlVxVy 0x1#4 0x2#4) := by decide

theorem test_decode_classF :
    decode config 0b1111010100000111#16 = .instr (.ldVxDt 0x5#4) ∧
    decode config 0b1111000100001010#16 = .instr (.ldVxK 0x1#4) ∧
    decode config 0b1111000100010101#16 = .instr (.ldDtVx 0x1#4) ∧
    decode config 0b1111000100011000#16 = .instr (.ldStVx 0x1#4) ∧
    decode config 0b1111001000011110#16 = .instr (.addIVx 0x2#4) ∧
    decode config 0b1111000000101001#16 = .instr (.ldFVx 0x0#4) ∧
    decode config 0b1111000000110011#16 = .instr (.ldBVx 0x0#4) ∧
    decode config 0b1111001001010101#16 = .instr (.ldMemVx 0x2#4) ∧
    decode config 0b1111001001100101#16 = .instr (.ldVxMem 0x2#4) := by decide

theorem test_decode_refuses_class8 :
    decode config 0x8008#16 = .unknownOpcode ∧
    decode config 0x8009#16 = .unknownOpcode ∧
    decode config 0x800A#16 = .unknownOpcode ∧
    decode config 0x800B#16 = .unknownOpcode ∧
    decode config 0x800C#16 = .unknownOpcode ∧
    decode config 0x800D#16 = .unknownOpcode ∧
    decode config 0x800F#16 = .unknownOpcode := by decide

theorem test_decode_refuses :
    decode config 0xE000#16 = .unknownOpcode ∧
    decode config 0xE09F#16 = .unknownOpcode ∧
    decode config 0xE0A0#16 = .unknownOpcode ∧
    decode config 0xE0FF#16 = .unknownOpcode ∧
    decode config 0xF000#16 = .unknownOpcode ∧
    decode config 0xF030#16 = .unknownOpcode ∧
    decode config 0xF0FF#16 = .unknownOpcode ∧
    decode otherwise 0xB123#16 = .unknownOpcode := by decide

theorem test_decodeTableWord :
    decodeTableWord 16 0x8125 = some (.subVxVy 0x1#4 0x2#4) ∧ decodeTableWord 16 0x00E0 = some .cls ∧
    decodeTableWord 16 0x8008 = none := by decide

theorem test_decodeBytes_is_big_endian :
    decodeBytes config [0x60#8, 0x0A#8, 0x70#8] = some (.instr (.ldVxKk 0x0#4 0x0A#8), [0x70#8]) ∧
    decodeBytes config [0x60#8] = none := by decide

/-- S11. -/
theorem test_asmText : asmText (.ldVxKk 0x0#4 0x0A#8) = "LD V0,#$0A" ∧ asmText (.addVxKk 0x0#4 0x05#8) = "ADD V0,#$05" :=
  ⟨rfl, rfl⟩

/-! ### The step and the run state -/

/-- EC2: the fetch at 0xFFE is legal. -/
theorem test_step_last_fetch :
    (ran (step { placed 0xFFE 0x1200#16 with pc := 0x0FFE#16 })).pc = 0x200#16 := by decide

/-- EC3. -/
theorem test_step_fetch_fault :
    (ran (step { State.reset with pc := 0x0FFF#16 })).diag = some ⟨.memoryOutOfBounds, 0x0000#16, 0x0FFF#16, 1⟩ ∧
    (ran (step { State.reset with pc := 0x0FFF#16 })).runState = .halted := by decide

/-- EC5: an odd `PC`. -/
theorem test_step_odd_pc :
    (ran (step { placed 0x201 0x6042#16 with pc := 0x0201#16 })).reg 0x0#4 = 0x42#8 ∧
    (ran (step { placed 0x201 0x6042#16 with pc := 0x0201#16 })).pc = 0x0203#16 := by decide

/-- S9. -/
theorem test_step_unknown_opcode :
    (ran (step (placed 0x200 0x8008#16))).diag = some ⟨.unknownOpcode, 0x8008#16, 0x0200#16, 1⟩ ∧
    (ran (step (ran (step (placed 0x200 0x8008#16))))).cycles = 1 := by decide

/-- EC6. -/
theorem test_poll_without_key :
    ran (step { State.reset with runState := .waitingForKey, waitX := 0x4#4 })
      = { State.reset with runState := .waitingForKey, waitX := 0x4#4, cycles := 1 } := by decide

/-- EC7. -/
theorem test_poll_lowest_key :
    (ran (step { State.reset with
      runState := .waitingForKey, waitX := 0x4#4, pc := 0x0210#16, key := keys [0xC, 0x7] })).reg 0x4#4 = 0x07#8 ∧
    (ran (step { State.reset with
      runState := .waitingForKey, waitX := 0x4#4, pc := 0x0210#16, key := keys [0xC, 0x7] })).pc = 0x0212#16 := by decide

/-- CF11. -/
theorem test_step_bnnn_unknown :
    (ran (stepIn otherwise (placed 0x200 0xB300#16))).diag = some ⟨.unknownOpcode, 0xB300#16, 0x0200#16, 1⟩ := by decide

/-- The placed word is the one the next step runs. -/
theorem test_withFetchWord : (ran (step (State.reset.withFetchWord 16 0x600A))).reg 0x0#4 = 0x0A#8 := by decide

/-! ### Control flow -/

/-- CF1. -/
theorem test_sys : (ran (step (placed 0x200 0x0123#16))).pc = 0x0202#16 := by decide

/-- CF2. -/
theorem test_jp : (ran (step (placed 0x200 0x1234#16))).pc = 0x0234#16 := by decide

/-- CF5: the sixteenth CALL. -/
theorem test_call_sixteenth :
    (ran (step { placed 0x200 0x2208#16 with sp := 15 })).stack[15] = 0x0200#16 ∧
    (ran (step { placed 0x200 0x2208#16 with sp := 15 })).sp = 16 := by decide

/-- CF6. -/
theorem test_call_overflow :
    (ran (step { placed 0x200 0x2208#16 with sp := 16 })).diag = some ⟨.stackOverflow, 0x2208#16, 0x0200#16, 1⟩ := by decide

/-- CF7. -/
theorem test_ret :
    (ran (step { placed 0x208 0x00EE#16 with
      pc := 0x0208#16, sp := 1, stack := State.reset.stack.set 0 0x0200#16 })).pc = 0x0202#16 := by decide

/-- CF8. -/
theorem test_ret_underflow :
    (ran (step (placed 0x200 0x00EE#16))).diag = some ⟨.stackUnderflow, 0x00EE#16, 0x0200#16, 1⟩ := by decide

/-- CF10. -/
theorem test_jp_v0_highest : (ran (step ((placed 0x200 0xBFFF#16).setReg 0x0#4 0xFF#8))).pc = 0x10FE#16 := by decide

/-- CF12, CF13. -/
theorem test_se_sne_immediate :
    (ran (step ((placed 0x200 0x3312#16).setReg 0x3#4 0x12#8))).pc = 0x0204#16 ∧
    (ran (step ((placed 0x200 0x4312#16).setReg 0x3#4 0x12#8))).pc = 0x0202#16 ∧
    (ran (step (placed 0x200 0x3312#16))).pc = 0x0202#16 ∧ (ran (step (placed 0x200 0x4312#16))).pc = 0x0204#16 := by decide

/-- CF15. -/
theorem test_se_sne_registers :
    (ran (step (with2 0x5127#16 0x1#4 0x01#8 0x2#4 0x02#8))).pc = 0x0202#16 ∧
    (ran (step (with2 0x9127#16 0x1#4 0x01#8 0x2#4 0x02#8))).pc = 0x0204#16 := by decide

/-! ### Arithmetic and logic -/

/-- AL1. -/
theorem test_ld_immediate : (ran (step (placed 0x200 0x6A5C#16))).reg 0xA#4 = 0x5C#8 := by decide

/-- AL3: no carry flag. -/
theorem test_add_immediate :
    (ran (step (with2 0x7001#16 0x0#4 0xFF#8 0xF#4 0x00#8))).reg 0x0#4 = 0x00#8 ∧
    (ran (step (with2 0x7001#16 0x0#4 0xFF#8 0xF#4 0x00#8))).reg 0xF#4 = 0x00#8 := by decide

/-- AL5. -/
theorem test_ld_register : (ran (step ((placed 0x200 0x8120#16).setReg 0x2#4 0x55#8))).reg 0x1#4 = 0x55#8 := by decide

/-- AL6. -/
theorem test_logic :
    (ran (step (with2 0x8121#16 0x1#4 0xF0#8 0x2#4 0x0F#8))).reg 0x1#4 = 0xFF#8 ∧
    (ran (step (with2 0x8122#16 0x1#4 0xF0#8 0x2#4 0x0F#8))).reg 0x1#4 = 0x00#8 ∧
    (ran (step (with2 0x8123#16 0x1#4 0xF0#8 0x2#4 0x0F#8))).reg 0x1#4 = 0xFF#8 := by decide

/-- AL6, AL7: `VF` by `LOGIC_RESETS_VF`. -/
theorem test_logic_flag :
    (ran (step (with2 0x8121#16 0x1#4 0xF0#8 0xF#4 0x09#8))).reg vf = 0x09#8 ∧
    (ran (stepIn otherwise (with2 0x8121#16 0x1#4 0xF0#8 0xF#4 0x09#8))).reg vf = 0x00#8 := by decide

/-- AL9. -/
theorem test_add_carry :
    (ran (step (with2 0x8014#16 0x0#4 0xFF#8 0x1#4 0x01#8))).reg 0x0#4 = 0x00#8 ∧
    (ran (step (with2 0x8014#16 0x0#4 0xFF#8 0x1#4 0x01#8))).reg vf = 1#8 := by decide

/-- AL12: the flag wins. -/
theorem test_add_into_vf : (ran (step (with2 0x8F04#16 0x0#4 0x01#8 0xF#4 0x10#8))).reg vf = 0#8 := by decide

/-- S6. -/
theorem test_sub_borrow :
    (ran (step (with2 0x8125#16 0x1#4 0x05#8 0x2#4 0x07#8))).reg 0x1#4 = 0xFE#8 ∧
    (ran (step (with2 0x8125#16 0x1#4 0x05#8 0x2#4 0x07#8))).reg vf = 0#8 := by decide

/-- S6: equal operands. -/
theorem test_sub_equal : (ran (step (with2 0x8125#16 0x1#4 0x05#8 0x2#4 0x05#8))).reg vf = 1#8 := by decide

/-- AL23. -/
theorem test_subn :
    (ran (step (with2 0x8127#16 0x1#4 0x01#8 0x2#4 0x00#8))).reg 0x1#4 = 0xFF#8 ∧
    (ran (step (with2 0x8127#16 0x1#4 0x01#8 0x2#4 0x00#8))).reg vf = 0#8 := by decide

/-- AL20: under both sources. -/
theorem test_shr :
    (ran (step (with2 0x8126#16 0x1#4 0x00#8 0x2#4 0x03#8))).reg vf = 0#8 ∧
    (ran (stepIn otherwise (with2 0x8126#16 0x1#4 0x00#8 0x2#4 0x03#8))).reg 0x1#4 = 0x01#8 ∧
    (ran (stepIn otherwise (with2 0x8126#16 0x1#4 0x00#8 0x2#4 0x03#8))).reg vf = 1#8 := by decide

/-- AL26: under both sources. -/
theorem test_shl :
    (ran (step (with2 0x812E#16 0x1#4 0x00#8 0x2#4 0x81#8))).reg vf = 0#8 ∧
    (ran (stepIn otherwise (with2 0x812E#16 0x1#4 0x00#8 0x2#4 0x81#8))).reg 0x1#4 = 0x02#8 ∧
    (ran (stepIn otherwise (with2 0x812E#16 0x1#4 0x00#8 0x2#4 0x81#8))).reg vf = 1#8 := by decide

/-- AL28: the masked byte is 0 whatever the oracle gives, and the draw is consumed. -/
theorem test_rnd_masked_out :
    (ran (exec (.rndVxKk 0x2#4 0x00#8) State.reset)).reg 0x2#4 = 0x00#8 ∧
    (ran (exec (.rndVxKk 0x2#4 0x00#8) State.reset)).draws = 1 := by
  constructor
  · show (State.reset.setReg 0x2#4 (State.rand State.reset &&& 0x00#8)).reg 0x2#4 = 0x00#8
    rw [BitVec.and_zero]
    decide
  · rfl

/-! ### Index register and memory -/

/-- IM1. -/
theorem test_ld_i : (ran (step (placed 0x200 0xA300#16))).i = 0x0300#16 := by decide

/-- IM4, IM6. -/
theorem test_add_i :
    (ran (step { (placed 0x200 0xF01E#16).setReg 0x0#4 0x01#8 with i := 0x0FFF#16 })).reg vf = 1#8 ∧
    (ran (step { (placed 0x200 0xF01E#16).setReg 0x0#4 0x02#8 with i := 0xFFFF#16 })).i = 0x0001#16 := by decide

/-- IM3. -/
theorem test_add_i_below :
    (ran (step { (placed 0x200 0xF01E#16).setReg 0x0#4 0x01#8 with i := 0x0FFE#16 })).reg vf = 0#8 := by decide

/-- IM8, IM10. -/
theorem test_ld_f :
    (ran (step ((placed 0x200 0xF029#16).setReg 0x0#4 0x0A#8))).i = 0x0032#16 ∧
    (ran (step ((placed 0x200 0xF029#16).setReg 0x0#4 0xFF#8))).i = 0x04FB#16 := by decide

/-- IM15: the last three bytes. -/
theorem test_ld_b :
    (ran (step { (placed 0x200 0xF033#16).setReg 0x0#4 0xEA#8 with i := 0x0FFD#16 })).mem.readBytes 0xFFD 3
      = [2#8, 3#8, 4#8] := by decide

/-- IM16. -/
theorem test_ld_b_fault :
    (ran (step { (placed 0x200 0xF033#16).setReg 0x0#4 0xEA#8 with i := 0x0FFE#16 })).diag
      = some ⟨.memoryOutOfBounds, 0xF033#16, 0x0200#16, 1⟩ := by decide

/-- IM17, IM18. -/
theorem test_block_store :
    (ran (step { with2 0xF155#16 0x0#4 0x11#8 0x1#4 0x22#8 with i := 0x0300#16 })).mem.readBytes 0x300 3
      = [0x11#8, 0x22#8, 0x00#8] ∧
    (ran (step { with2 0xF155#16 0x0#4 0x11#8 0x1#4 0x22#8 with i := 0x0300#16 })).i = 0x0302#16 ∧
    (ran (stepIn otherwise { with2 0xF155#16 0x0#4 0x11#8 0x1#4 0x22#8 with i := 0x0300#16 })).i = 0x0300#16 := by decide

/-- IM22. -/
theorem test_block_store_fault :
    (ran (step { placed 0x200 0xFF55#16 with i := 0x0FF1#16 })).diag
      = some ⟨.memoryOutOfBounds, 0xFF55#16, 0x0200#16, 1⟩ := by decide

/-- P3: the block load after the BCD store of 44. -/
theorem test_block_load :
    (ran (step { (placed 0x200 0xF265#16).storeBytes 0x300 [0#8, 4#8, 4#8] with i := 0x0300#16 })).reg 0x2#4 = 0x04#8 ∧
    (ran (step { (placed 0x200 0xF265#16).storeBytes 0x300 [0#8, 4#8, 4#8] with i := 0x0300#16 })).i = 0x0303#16 := by
  decide

/-- IM26. -/
theorem test_block_load_fault :
    (ran (step { placed 0x200 0xF065#16 with i := 0x1000#16 })).diag
      = some ⟨.memoryOutOfBounds, 0xF065#16, 0x0200#16, 1⟩ := by decide

/-! ### Timers and keys -/

/-- TK1, TK2, TK3. -/
theorem test_timers :
    (ran (step { placed 0x200 0xF507#16 with dt := 0x3C#8 })).reg 0x5#4 = 0x3C#8 ∧
    (ran (step ((placed 0x200 0xF115#16).setReg 0x1#4 0x05#8))).dt = 0x05#8 ∧
    (ran (step ((placed 0x200 0xF118#16).setReg 0x1#4 0x01#8))).st = 0x01#8 := by decide

/-- S10, TK4. -/
theorem test_tick :
    ({ State.reset with dt := 5#8 } : State).tick.dt = 4#8 ∧ ({ State.reset with dt := 5#8 } : State).tick.st = 0#8 := by
  decide

/-- TK7. -/
theorem test_key_skips :
    (ran (step { (placed 0x200 0xE09E#16).setReg 0x0#4 5#8 with key := keys [5] })).pc = 0x0204#16 ∧
    (ran (step { (placed 0x200 0xE0A1#16).setReg 0x0#4 5#8 with key := keys [5] })).pc = 0x0202#16 := by decide

/-- TK9: no key 16. -/
theorem test_key_skips_past_fifteen :
    (ran (step { (placed 0x200 0xE09E#16).setReg 0x0#4 0x10#8 with key := Vector.replicate 16 true })).pc = 0x0202#16 ∧
    (ran (step { (placed 0x200 0xE0A1#16).setReg 0x0#4 0x10#8 with key := Vector.replicate 16 true })).pc = 0x0204#16 := by
  decide

/-- TK10. -/
theorem test_wait_with_keys :
    (ran (step { placed 0x200 0xF10A#16 with key := keys [9, 5] })).reg 0x1#4 = 0x05#8 ∧
    (ran (step { placed 0x200 0xF10A#16 with key := keys [9, 5] })).pc = 0x0202#16 := by decide

/-- TK11. -/
theorem test_wait_without_key :
    (ran (step (placed 0x200 0xF10A#16))).runState = .waitingForKey ∧ (ran (step (placed 0x200 0xF10A#16))).waitX = 0x1#4 ∧
    (ran (step (placed 0x200 0xF10A#16))).pc = 0x0200#16 := by decide

/-! ### Display -/

/-- DR2: glyph 0 at the top left. -/
theorem test_draw_glyph :
    (ran (exec (.drwVxVyN 0x0#4 0x0#4 0x5#4) State.reset)).disp[1].toList.take 8
      = [true, false, false, true, false, false, false, false] ∧
    (ran (exec (.drwVxVyN 0x0#4 0x0#4 0x5#4) State.reset)).reg vf = 0#8 := by decide

/-- DR4: the right edge under both policies. -/
theorem test_draw_edge :
    (ran (exec (.drwVxVyN 0x0#4 0x1#4 0x1#4)
      { (State.reset.setReg 0x0#4 0x3E#8).storeBytes 0x300 [0xFF#8] with i := 0x0300#16 })).disp.lit (0, 5) = true ∧
    (ran (execIn clipped (.drwVxVyN 0x0#4 0x1#4 0x1#4)
      { (State.reset.setReg 0x0#4 0x3E#8).storeBytes 0x300 [0xFF#8] with i := 0x0300#16 })).disp.lit (0, 5) = false := by
  decide

/-- DR1. -/
theorem test_cls :
    (ran (exec .cls { State.reset with dirty := false, disp := State.reset.disp.toggle (0, 3) })).disp.lit (0, 3) = false ∧
    (ran (exec .cls { State.reset with dirty := false, disp := State.reset.disp.toggle (0, 3) })).dirty = true := by decide

/-! ### The host's operations -/

/-- DR14. -/
theorem test_flush : State.reset.flush.2.dirty = false ∧ State.reset.flush.2.flush.1 = none := by decide

/-- RS2, RS3. -/
theorem test_load :
    ((State.reset.load config [0x60#8, 0x0A#8] 0x0200#16).2.mem.readBytes 0x200 2) = [0x60#8, 0x0A#8] ∧
    (State.reset.load config [1#8] 0x0FFF#16).1 = .ok ∧ (State.reset.load config [1#8, 2#8] 0x0FFF#16).1 = .loadOutOfBounds ∧
    (State.reset.load config [] 0x1000#16).1 = .ok := by decide

/-! ### Witnesses: each statement's hypotheses are met, clause by clause, at the boundaries of their ranges -/

theorem witness_DecodeEncodeRoundTrip :
    (Instr.sysNnn 0xFFF#12).wellFormed otherwise = true ∧ (Instr.jpV0Nnn 0xFFF#12).wellFormed clipped = true := by decide

theorem witness_DecodedWordsReencode :
    decode otherwise 0x5121#16 = .instr (.seVxVy 0x1#4 0x2#4) ∧ decode config 0x00E1#16 = .instr (.sysNnn 0x0E1#12) := by decide

theorem witness_DecodedWordsMatchTheirRow : decode config 0xFF65#16 = .instr (.ldVxMem 0xF#4) := by decide

/-- At the highest address a fetch reaches, with a word that is not the canonical one. -/
theorem witness_StepRunsTheDecodedInstruction :
    (placed 0xFFE 0x912F#16).runState = .running ∧
    ({ placed 0xFFE 0x912F#16 with pc := 0x0FFE#16 } : State).pc.toNat + 1 < config.memSize ∧
    decode config (wordAtPc { placed 0xFFE 0x912F#16 with pc := 0x0FFE#16 }) = .instr (.sneVxVy 0x1#4 0x2#4) := by decide

/-- Every fault in turn, and none. -/
theorem witness_FaultsArePreciseAndOrdered :
    stepFault config { State.reset with pc := 0x0FFF#16 } = some (.memoryOutOfBounds, 0x0000#16) ∧
    stepFault otherwise (placed 0x200 0xB300#16) = some (.unknownOpcode, 0xB300#16) ∧
    stepFault config { placed 0x200 0x2208#16 with sp := 16 } = some (.stackOverflow, 0x2208#16) ∧
    stepFault config (placed 0x200 0x00EE#16) = some (.stackUnderflow, 0x00EE#16) ∧
    stepFault config { placed 0x200 0xD005#16 with i := 0x0FFC#16 } = some (.memoryOutOfBounds, 0xD005#16) ∧
    stepFault config { placed 0x200 0xD000#16 with i := 0xFFFF#16 } = none ∧ stepFault config State.reset = none := by decide

theorem witness_HaltedStepChangesNothing :
    ({ State.reset with runState := .halted, cycles := 7 } : State).runState = .halted := by decide

/-- Key 0xF alone, and two keys. -/
theorem witness_WaitPollTakesTheLowestKey :
    LowestKey { State.reset with runState := .waitingForKey, key := keys [0xF] } 0xF ∧
    LowestKey { State.reset with runState := .waitingForKey, key := keys [0xC, 0x7] } 0x7 ∧
    ¬ AnyKey { State.reset with runState := .waitingForKey } := by
  unfold LowestKey AnyKey
  decide

/-- A fault, a wait and a plain step; a call that is neither `reset` nor `step`. -/
theorem witness_RunStateTransitions :
    (stepFault config (placed 0x200 0x00EE#16)).isSome = true ∧
    decode config (wordAtPc (placed 0x200 0xF10A#16)) = .instr (.ldVxK 0x1#4) ∧ ¬ AnyKey (placed 0x200 0xF10A#16) ∧
    HostCall.tick ≠ .reset ∧ HostCall.tick ≠ .step ∧ perform .tick State.reset = .next (.nothing, State.reset.tick) := by
  unfold AnyKey
  exact ⟨by decide, by decide, by decide, by decide, by decide, rfl⟩

theorem witness_StepLeavesTimersKeysAndDirtyAlone :
    (∃ t, step State.reset = .next t) ∧ State.reset.runState ≠ .waitingForKey ∧
    (∀ i, decode config (wordAtPc State.reset) = .instr i → readsKey i = false) := by
  refine ⟨⟨_, rfl⟩, by decide, fun i h => ?_⟩
  have hd : decode config (wordAtPc State.reset) = .instr (.sysNnn 0x000#12) := by decide
  rw [hd] at h
  cases h
  rfl

theorem witness_WaitWithoutAKeyHangs :
    ({ State.reset with runState := .waitingForKey } : State).runState = .waitingForKey ∧
    ¬ AnyKey { State.reset with runState := .waitingForKey } := by
  unfold AnyKey
  decide

/-- CF3, and the jump to itself at the highest address a fetch reaches. -/
theorem witness_ParkedRunsStayParked :
    Parked { placed 0x240 0x1240#16 with pc := 0x0240#16 } ∧ Parked { placed 0xFFE 0x1FFE#16 with pc := 0x0FFE#16 } := by
  unfold Parked
  exact ⟨⟨by decide, by decide, 0x240#12, by decide, by decide⟩, ⟨by decide, by decide, 0xFFE#12, by decide, by decide⟩⟩

/-- Each instruction's own condition, on both sides of its bound. -/
theorem witness_EveryInstructionCompletesOrFaults :
    ownFault config (.drwVxVyN 0x0#4 0x0#4 0x5#4) { State.reset with i := 0x0FFC#16 } = some .memoryOutOfBounds ∧
    ownFault config (.drwVxVyN 0x0#4 0x0#4 0x4#4) { State.reset with i := 0x0FFC#16 } = none ∧
    ownFault config (.ldBVx 0x0#4) { State.reset with i := 0x0FFE#16 } = some .memoryOutOfBounds ∧
    ownFault config (.ldBVx 0x0#4) { State.reset with i := 0x0FFD#16 } = none ∧
    ownFault config (.ldMemVx 0xF#4) { State.reset with i := 0x0FF1#16 } = some .memoryOutOfBounds ∧
    ownFault config (.ldVxMem 0xF#4) { State.reset with i := 0x0FF0#16 } = none := by decide

theorem witness_LogicResults : Config.default.logicResetsVF = false ∧ otherwise.logicResetsVF = true := by decide

theorem witness_ShiftResults :
    0x80#8 = (match Config.default.shiftSource with
      | .vx => (State.reset.setReg 0x1#4 0x80#8).reg 0x1#4
      | .vy => (State.reset.setReg 0x1#4 0x80#8).reg 0x2#4) ∧
    0x00#8 = (match otherwise.shiftSource with
      | .vx => (State.reset.setReg 0x1#4 0x80#8).reg 0x1#4
      | .vy => (State.reset.setReg 0x1#4 0x80#8).reg 0x2#4) := by decide

/-- CF11. -/
theorem witness_JumpWithOffset :
    otherwise.bnnnMode = .unknown ∧ (placed 0x200 0xB300#16).runState = .running ∧
    (placed 0x200 0xB300#16).pc.toNat + 1 < otherwise.memSize ∧ wordAtPc (placed 0x200 0xB300#16) = formatA 0xB#4 0x300#12 := by
  decide

theorem witness_CallPushesItsAddress :
    State.reset.sp.val = 0 ∧ ({ State.reset with sp := 15 } : State).sp.val = 15 ∧
    ({ State.reset with sp := 16 } : State).sp.val = 16 := by decide

theorem witness_ReturnPopsAndAddsTwo :
    ({ State.reset with sp := 1 } : State).sp.val = 0 + 1 ∧ ({ State.reset with sp := 16 } : State).sp.val = 15 + 1 ∧
    State.reset.sp.val = 0 := by decide

/-- The entries kept lie below the popped one when it is the last, and above it when it is the first. -/
theorem witness_CallThenReturnComesBack :
    ({ State.reset with sp := 15 } : State).sp.val < 16 ∧ 0 ≠ ({ State.reset with sp := 15 } : State).sp.val ∧
    State.reset.sp.val < 16 ∧ 15 ≠ State.reset.sp.val := by decide

theorem witness_FontAddressResult : (15 : Nat) < 16 ∧ (4 : Nat) < 5 ∧ fontRow 15 4 = 0x80#8 := by decide

theorem witness_DecimalStoreResult :
    ({ State.reset with i := 0x0FFD#16 } : State).i.toNat + 2 < config.memSize ∧
    ({ State.reset with i := 0x0FFE#16 } : State).i.toNat + 2 ≥ config.memSize := by decide

theorem witness_BlockStoreResult :
    ({ State.reset with i := 0x0FF0#16 } : State).i.toNat + (0xF#4).toNat < config.memSize ∧
    ({ State.reset with i := 0x0FF1#16 } : State).i.toNat + (0xF#4).toNat ≥ config.memSize ∧ (0x0#4) ≤ (0xF#4) := by decide

theorem witness_BlockLoadResult :
    ({ State.reset with i := 0x0FFF#16 } : State).i.toNat + (0x0#4).toNat < config.memSize ∧
    ({ State.reset with i := 0x1000#16 } : State).i.toNat + (0x0#4).toNat ≥ config.memSize := by decide

theorem witness_BlockStoreThenLoadRestores :
    ({ State.reset with i := 0x0FF0#16 } : State).i.toNat + (0xF#4).toNat < config.memSize := by decide

/-- IM27, and the highest next instruction. -/
theorem witness_StoredCodeIsFetchedNext :
    (0x1#4) ≤ (0x1#4) ∧ ({ State.reset with i := 0x0202#16 } : State).i = State.reset.pc + 2#16 ∧
    ({ State.reset with pc := 0x0FFC#16, i := 0x0FFE#16 } : State).i.toNat + (0x1#4).toNat < config.memSize := by decide

theorem witness_KeySkips :
    KeyNamed { State.reset with key := keys [0xF] } 0x0F#8 ∧ ¬ KeyNamed { State.reset with key := keys [0xF] } 0x05#8 ∧
    ¬ KeyNamed { State.reset with key := Vector.replicate 16 true } 0x10#8 := by
  unfold KeyNamed
  decide

theorem witness_WaitForKeyResult :
    LowestKey { State.reset with key := keys [9, 5] } 5 ∧ ¬ AnyKey State.reset := by
  unfold LowestKey AnyKey
  decide

/-- In bounds at the last byte, out of bounds by one, and no row at all; a cell the sprite covers that is lit, and a draw
that covers no lit cell. -/
theorem witness_DrawTogglesExactlyTheSprite :
    ({ State.reset with i := 0x0FFC#16 } : State).i.toNat + (0x4#4).toNat - 1 < config.memSize ∧
    ({ State.reset with i := 0x0FFC#16 } : State).i.toNat + (0x5#4).toNat - 1 ≥ config.memSize ∧ (0x5#4) ≠ 0x0#4 ∧
    spriteCovers config State.reset 0x0#4 0x0#4 0x5#4 (0, 3) = true ∧
    Display.lit (State.reset.disp.toggle (0, 3)) (0, 3) = true ∧ State.reset.disp = Display.blank := by decide

theorem witness_DrawingTwiceRestoresTheDisplay :
    ({ State.reset with i := 0x0FFC#16 } : State).i.toNat + (0x4#4).toNat - 1 < config.memSize ∧ (0x0#4) ≠ vf := by decide

theorem witness_FirstDrawAfterClearNeverCollides : State.reset.i.toNat + (0x5#4).toNat - 1 < config.memSize := by decide

/-- A state in a subroutine that waits for a key meets the invariant. -/
theorem witness_StepKeepsTheInvariant :
    Inv { placed 0x208 0xF10A#16 with
      pc := 0x0208#16, sp := 1, stack := State.reset.stack.set 0 0x0200#16, runState := .waitingForKey, waitX := 0x1#4 } ∧
    ∃ t, step { placed 0x208 0xF10A#16 with
      pc := 0x0208#16, sp := 1, stack := State.reset.stack.set 0 0x0200#16, runState := .waitingForKey, waitX := 0x1#4 }
        = .next t := by
  refine ⟨⟨by decide, by decide, fun d h => ?_, fun d h => ?_, fun _ => by decide, ?_, by decide⟩, _, rfl⟩
  · cases h
  · cases h
  · decide

/-- A halted state meets it too: a stack underflow at 0x200. -/
theorem witness_EveryHostCallKeepsTheInvariant :
    Inv { placed 0x200 0x00EE#16 with
      cycles := 1, runState := .halted, diag := some ⟨.stackUnderflow, 0x00EE#16, 0x0200#16, 1⟩ } ∧
    perform .tick { placed 0x200 0x00EE#16 with
      cycles := 1, runState := .halted, diag := some ⟨.stackUnderflow, 0x00EE#16, 0x0200#16, 1⟩ }
        = .next (.nothing, ({ placed 0x200 0x00EE#16 with
          cycles := 1, runState := .halted, diag := some ⟨.stackUnderflow, 0x00EE#16, 0x0200#16, 1⟩ } : State).tick) := by
  refine ⟨⟨by decide, by decide, fun d h => ?_, fun d h => ?_, fun h => ?_, ?_, by decide⟩, rfl⟩
  · cases h
    decide
  · cases h
    exact .inr (.inr ⟨.ret, by decide, by decide⟩)
  · cases h
  · decide

theorem witness_LoadIsAllOrNothing :
    (0x0FFF#16).toNat + [1#8].length ≤ Config.default.memSize ∧ (0x1000#16).toNat + ([] : List Byte).length ≤ Config.default.memSize ∧
    (0x0FFF#16).toNat + [1#8, 2#8].length > Config.default.memSize := by decide

theorem witness_SetKeyWritesOneKey : (3 : Fin 16) ≠ 0xF := by decide

theorem witness_FlushHandsOverOnce :
    State.reset.dirty = true ∧ ({ State.reset with dirty := false } : State).dirty = false := by decide

end Sys2Proof.Tests
end

section
/-! PROOFS. What executing an instruction can do, said once: it takes its own fault, or it completes and writes nothing but
what the spec's tables of effects list. -/

namespace Sys2Proof.Machine

/-! ### What executing an instruction can do -/

/-- The fault condition of DRW is the negation of its bounds check. -/
theorem ownFault_drwVxVyN (cfg : Config) (x y : RegIdx) (n : Nibble) (s : State) :
    ownFault cfg (.drwVxVyN x y n) s = if inBounds cfg s.i.toNat n.toNat then none else some .memoryOutOfBounds := by
  have h : (0 < n.toNat ∧ s.i.toNat + n.toNat - 1 ≥ cfg.memSize) ↔ ¬ inBounds cfg s.i.toNat n.toNat = true := by
    rw [inBounds_iff]
    omega
  simp only [ownFault, h, ite_not]

/-- The fault condition of LD B is the negation of its bounds check. -/
theorem ownFault_ldBVx (cfg : Config) (x : RegIdx) (s : State) :
    ownFault cfg (.ldBVx x) s = if inBounds cfg s.i.toNat 3 then none else some .memoryOutOfBounds := by
  have h : s.i.toNat + 2 ≥ cfg.memSize ↔ ¬ inBounds cfg s.i.toNat 3 = true := by
    rw [inBounds_iff]
    omega
  simp only [ownFault, h, ite_not]

/-- The fault condition of a block store is the negation of its bounds check. -/
theorem ownFault_ldMemVx (cfg : Config) (x : RegIdx) (s : State) :
    ownFault cfg (.ldMemVx x) s = if inBounds cfg s.i.toNat (blockLength x) then none else some .memoryOutOfBounds := by
  have h : s.i.toNat + x.toNat ≥ cfg.memSize ↔ ¬ inBounds cfg s.i.toNat (blockLength x) = true := by
    rw [inBounds_iff, blockLength]
    omega
  simp only [ownFault, h, ite_not]

/-- A block load checks the bytes a block store checks. -/
theorem ownFault_ldVxMem (cfg : Config) (x : RegIdx) (s : State) :
    ownFault cfg (.ldVxMem x) s = if inBounds cfg s.i.toNat (blockLength x) then none else some .memoryOutOfBounds :=
  ownFault_ldMemVx cfg x s

/-- Where an instruction's own fault condition holds it takes that fault, with its own word. -/
theorem execIn_of_ownFault {cfg : Config} {i : Instr} {s : State} {kind : FaultKind}
    (h : ownFault cfg i s = some kind) : execIn cfg i s = .next (s.takeFault kind (encode i)) := by
  cases i with
  | ret =>
    simp only [ownFault, Option.ite_none_right_eq_some, Option.some.injEq] at h
    obtain ⟨hsp, rfl⟩ := h
    simp only [execIn, execRet, State.pop_empty s hsp]
  | callNnn nnn =>
    simp only [ownFault, Option.ite_none_right_eq_some, Option.some.injEq] at h
    obtain ⟨hsp, rfl⟩ := h
    simp only [execIn, execCallNnn, State.push_full s s.pc hsp]
  | drwVxVyN | ldBVx | ldMemVx | ldVxMem =>
    simp only [ownFault_drwVxVyN, ownFault_ldBVx, ownFault_ldMemVx, ownFault_ldVxMem, Option.ite_none_left_eq_some,
      Option.some.injEq] at h
    obtain ⟨hb, rfl⟩ := h
    exact if_neg hb
  | _ => cases h

/-- A frame in which neither a register nor a byte of memory is written. -/
theorem FrameBut.of_parts {ps : List Part} {d : RegIdx → Prop} {m : Nat → Prop} {s t : State} (hv : t.v = s.v)
    (hm : t.mem = s.mem)
    (ho : ∀ p, p ∉ ps → Kept p s t := by intro p hp; cases p <;> simp_all [effects, Kept]) : FrameBut ps d m s t where
  registers y _ := by simp only [State.reg, hv]
  memory a _ := by rw [hm]
  others := ho

/-- Frames compose: what changes is what either changes. -/
theorem FrameBut.trans {ps ps' : List Part} {d d' : RegIdx → Prop} {m m' : Nat → Prop} {s t u : State}
    (h : FrameBut ps d m s t) (h' : FrameBut ps' d' m' t u) :
    FrameBut (ps ++ ps') (fun y => d y ∨ d' y) (fun a => m a ∨ m' a) s u where
  registers y hy := (h'.registers y fun c => hy (.inr c)).trans (h.registers y fun c => hy (.inl c))
  memory a ha := (h'.memory a fun c => ha (.inr c)).trans (h.memory a fun c => ha (.inl c))
  others p hp := by
    have h1 := h.others p fun c => hp (List.mem_append_left _ c)
    have h2 := h'.others p fun c => hp (List.mem_append_right _ c)
    cases p <;> exact h2.trans h1

/-- A frame in which the one register written is `V[x]`, and no byte of memory. -/
theorem FrameBut.of_setReg {ps : List Part} {d : RegIdx → Prop} {m : Nat → Prop} {s t : State} {x : RegIdx} {b : Byte}
    (hd : d x) (hv : t.v = (s.setReg x b).v) (hm : t.mem = s.mem)
    (ho : ∀ p, p ∉ ps → Kept p s t := by intro p hp; cases p <;> simp_all [effects, Kept]) : FrameBut ps d m s t where
  registers y hy := by
    have hyx : y ≠ x := fun e => hy (e ▸ hd)
    calc t.reg y = (s.setReg x b).reg y := by simp only [State.reg, hv]
      _ = s.reg y := State.reg_setReg_other s b hyx
  memory a _ := by rw [hm]
  others := ho

/-- A frame in which bytes are stored from `first` on, and no register is written. -/
theorem FrameBut.of_storeBytes {ps : List Part} {d : RegIdx → Prop} {m : Nat → Prop} {s t : State} {first : Nat}
    {bytes : List Byte} (hd : ∀ a, bytesFrom first bytes.length a → m a) (hv : t.v = s.v)
    (hm : t.mem = (s.storeBytes first bytes).mem)
    (ho : ∀ p, p ∉ ps → Kept p s t := by intro p hp; cases p <;> simp_all [effects, Kept]) : FrameBut ps d m s t where
  registers y _ := by simp only [State.reg, hv]
  memory a ha := by
    rw [hm]
    exact Memory.read_writeBytes_outside s.mem fun c => ha (hd a c)
  others := ho

theorem frame_logicResult (cfg : Config) (x : RegIdx) (r : Byte) (s : State) :
    ∃ t, logicResult cfg x r s = .next t ∧
      FrameBut [.pc] (fun y => y = x ∨ (cfg.logicResetsVF = true ∧ y = vf)) noByte s t := by
  cases h : cfg.logicResetsVF with
  | true =>
    exact ⟨_, by simp only [logicResult, h]; rfl,
      (flagResult_setRegAndFlag s x r 0x00#8).frame.mono (fun _ => id) (by simp) (fun _ => id)⟩
  | false =>
    exact ⟨_, by simp only [logicResult, h]; rfl,
      (plainResult_setReg s x r).frame.mono (fun _ => id) (by simp) (fun _ => id)⟩

theorem frame_flagResult (x : RegIdx) (r flag : Byte) (s : State) :
    ∃ t, flagResult x r flag s = .next t ∧ FrameBut [.pc] (fun y => y = x ∨ y = vf) noByte s t :=
  ⟨_, rfl, (flagResult_setRegAndFlag s x r flag).frame⟩

/-- RET with an entry to pop (R172). -/
theorem execIn_ret_of_pop {cfg : Config} {s t : State} {a : Word} (h : s.pop = some (a, t)) :
    execIn cfg .ret s = .next (t.setPc (a + 2#16)) := by
  simp only [execIn, execRet, h]

/-- CALL with room on the stack (R173). -/
theorem execIn_callNnn_of_push {cfg : Config} {nnn : Addr} {s t : State} (h : s.push s.pc = some t) :
    execIn cfg (.callNnn nnn) s = .next (t.setPc (zextAddr nnn)) := by
  simp only [execIn, execCallNnn, h]

/-- LD Vx,K with a key held (R258). -/
theorem execIn_ldVxK_of_some {cfg : Config} {x : RegIdx} {s : State} {k : Fin 16} (h : lowestPressed s.key = some k) :
    execIn cfg (.ldVxK x) s = .next (s.setReg x (keyByte k)).advance := by
  simp only [execIn, execLdVxK, h]

/-- LD Vx,K with no key held (R255). -/
theorem execIn_ldVxK_of_none {cfg : Config} {x : RegIdx} {s : State} (h : lowestPressed s.key = none) :
    execIn cfg (.ldVxK x) s = .next (s.waitForKey x) := by
  simp only [execIn, execLdVxK, h]

/-- Where an instruction's own fault condition does not hold it completes, and writes nothing but what the spec's table lists
(R42, R62). -/
theorem execIn_frame {cfg : Config} {i : Instr} {s : State} (h : ownFault cfg i s = none) :
    ∃ t, execIn cfg i s = .next t ∧ FrameBut (effects i) (writesReg cfg i) (storesTo i s) s t := by
  cases i with
  | sysNnn | jpNnn | jpV0Nnn | seVxKk | sneVxKk | seVxVy | sneVxVy | skpVx | sknpVx =>
    exact ⟨_, rfl, (jumpResult_setPc s _).frame⟩
  | ldVxKk x | addVxKk x | ldVxVy x | ldVxDt x => exact ⟨_, rfl, (plainResult_setReg s x _).frame⟩
  | orVxVy x | andVxVy x | xorVxVy x => exact frame_logicResult cfg x _ s
  | addVxVy x | subVxVy x | shrVxVy x | subnVxVy x | shlVxVy x => exact frame_flagResult x _ _ s
  | cls | ldDtVx | ldStVx | ldINnn | ldFVx => exact ⟨_, rfl, .of_parts rfl rfl⟩
  | rndVxKk x | addIVx x => exact ⟨_, rfl, .of_setReg rfl rfl rfl⟩
  | drwVxVyN x y n =>
    have hb : inBounds cfg s.i.toNat n.toNat = true := by simpa [ownFault_drwVxVyN] using h
    exact ⟨_, if_pos hb, .of_setReg rfl rfl rfl⟩
  | ret =>
    have hsp : s.sp.val ≠ 0 := by simpa [ownFault] using h
    cases hp : s.pop with
    | none => exact absurd (State.pop_eq_none hp) hsp
    | some r =>
      obtain ⟨-, -, ht⟩ := State.pop_eq_some hp
      exact ⟨_, execIn_ret_of_pop hp, .of_parts (by simp [ht]) (by simp [ht])⟩
  | callNnn nnn =>
    have hsp : s.sp.val ≠ 16 := by simpa [ownFault] using h
    cases hp : s.push s.pc with
    | none => exact absurd (State.push_eq_none hp) hsp
    | some u =>
      obtain ⟨_, ht⟩ := State.push_eq_some hp
      exact ⟨_, execIn_callNnn_of_push hp, .of_parts (by simp [ht]) (by simp [ht])⟩
  | ldVxK x =>
    cases hk : lowestPressed s.key with
    | some k =>
      exact ⟨_, execIn_ldVxK_of_some hk,
        (plainResult_setReg s x (keyByte k)).frame.mono (by simp [effects]) (fun _ => id) (fun _ => id)⟩
    | none => exact ⟨_, execIn_ldVxK_of_none hk, .of_parts rfl rfl⟩
  | ldBVx x =>
    have hb : inBounds cfg s.i.toNat 3 = true := by simpa [ownFault_ldBVx] using h
    exact ⟨_, if_pos hb, .of_storeBytes (fun _ => id) rfl rfl⟩
  | ldMemVx x =>
    have hb : inBounds cfg s.i.toNat (blockLength x) = true := by simpa [ownFault_ldMemVx] using h
    exact ⟨_, if_pos hb, .of_storeBytes (by simp [storesTo]) rfl rfl⟩
  | ldVxMem x =>
    have hb : inBounds cfg s.i.toNat (blockLength x) = true := by simpa [ownFault_ldVxMem] using h
    refine ⟨_, if_pos hb, fun y hy => ?_, fun _ _ => rfl, fun p hp => by cases p <;> simp_all [effects, Kept]⟩
    have hlt : ¬ y.toNat < blockLength x := fun hlt => hy (BitVec.le_def.mpr (Nat.lt_succ_iff.mp hlt))
    exact (State.reg_loadRegs s s.mem s.i.toNat (blockLength x) y).trans (if_neg hlt)

/-- The two things executing an instruction can do: take its own fault, or complete within its frame. -/
theorem exec_cases (i : Instr) (s : State) :
    (∃ kind, ownFault config i s = some kind ∧ exec i s = .next (s.takeFault kind (encode i))) ∨
    (ownFault config i s = none ∧
      ∃ t, exec i s = .next t ∧ FrameBut (effects i) (writesReg config i) (storesTo i s) s t) := by
  rw [exec_eq_execIn]
  cases h : ownFault config i s with
  | some kind => exact .inl ⟨kind, rfl, execIn_of_ownFault h⟩
  | none => exact .inr ⟨rfl, execIn_frame h⟩

/-! ### Which instructions write an item, read off the table of effects -/

theorem runState_mem_effects {i : Instr} : Part.runState ∈ effects i ↔ ∃ x, i = .ldVxK x := by
  cases i <;> simp [effects]

theorem dt_mem_effects {i : Instr} : Part.dt ∈ effects i ↔ ∃ x, i = .ldDtVx x := by
  cases i <;> simp [effects]

theorem st_mem_effects {i : Instr} : Part.st ∈ effects i ↔ ∃ x, i = .ldStVx x := by
  cases i <;> simp [effects]

theorem dirty_mem_effects {i : Instr} : Part.dirty ∈ effects i ↔ i = .cls ∨ ∃ x y n, i = .drwVxVyN x y n := by
  cases i <;> simp [effects]

theorem key_notMem_effects (i : Instr) : Part.key ∉ effects i := by
  cases i <;> simp [effects]

/-! ### The fault of a step -/

theorem State.fetch_eq_some_iff {cfg : Config} {s : State} {w : Word} :
    s.fetch cfg = some w ↔ s.pc.toNat + 1 < cfg.memSize ∧ w = wordAtPc s := by
  refine ⟨State.fetch_eq_some, ?_⟩
  rintro ⟨hpc, rfl⟩
  exact if_pos hpc

theorem State.fetch_eq_none_iff {cfg : Config} {s : State} : s.fetch cfg = none ↔ cfg.memSize ≤ s.pc.toNat + 1 := by
  simp [State.fetch]

theorem stepFault_of_fetch_none {cfg : Config} {s : State} (h : s.fetch cfg = none) :
    stepFault cfg s = some (.memoryOutOfBounds, 0x0000#16) :=
  if_pos (State.fetch_eq_none_iff.mp h)

theorem stepFault_of_unknownOpcode {cfg : Config} {s : State} (hpc : s.pc.toNat + 1 < cfg.memSize)
    (hd : decode cfg (wordAtPc s) = .unknownOpcode) : stepFault cfg s = some (.unknownOpcode, wordAtPc s) := by
  simp [stepFault, hpc, hd]

theorem stepFault_of_instr {cfg : Config} {s : State} {i : Instr} (hpc : s.pc.toNat + 1 < cfg.memSize)
    (hd : decode cfg (wordAtPc s) = .instr i) :
    stepFault cfg s = (ownFault cfg i s).map fun kind => (kind, wordAtPc s) := by
  simp [stepFault, hpc, hd]

end Sys2Proof.Machine
end

section
/-! PROOFS. The transitions of the run state (spec/40_engine_cycle.md R125). -/

namespace Sys2Proof.Machine

theorem anyKey_of_lowestPressed {s : State} {k : Fin 16} (h : lowestPressed s.key = some k) : AnyKey s :=
  ⟨k, (lowestPressed_eq_some.mp h).1⟩

/-- The run state an instruction leaves: halted by its own fault, waiting by Fx0A with no key pressed. -/
theorem exec_runState (i : Instr) {s : State} (h : s.runState = .running) :
    ∃ t, exec i s = .next t ∧ (t.runState = .halted ↔ (ownFault config i s).isSome = true) ∧
      (t.runState = .waitingForKey ↔ (∃ x, i = .ldVxK x) ∧ ¬ AnyKey s) := by
  obtain ⟨kind, hown, ht⟩ | ⟨hown, t, ht, hframe⟩ := exec_cases i s
  · refine ⟨_, ht, by simp [hown], ?_⟩
    have hi : ¬ ∃ x, i = .ldVxK x := by
      rintro ⟨x, rfl⟩
      cases hown
    simp [hi]
  · by_cases hi : ∃ x, i = .ldVxK x
    · obtain ⟨x, rfl⟩ := hi
      cases hk : lowestPressed s.key with
      | some k =>
        exact ⟨_, (exec_eq_execIn _ _).trans (execIn_ldVxK_of_some hk), by simp [hown, h],
          by simp [anyKey_of_lowestPressed hk, h]⟩
      | none =>
        exact ⟨_, (exec_eq_execIn _ _).trans (execIn_ldVxK_of_none hk), by simp [hown],
          by simp [(lowestPressed_none_iff s).mp hk]⟩
    · have hkept : t.runState = s.runState := hframe.others .runState (mt runState_mem_effects.mp hi)
      exact ⟨t, ht, by simp [hkept, h, hown], by simp [hkept, h, hi]⟩

@[simp] theorem anyKey_countCycle (s : State) : AnyKey s.countCycle ↔ AnyKey s := Iff.rfl

/-- A step out of `Running`. -/
theorem step_runState_of_running {s : State} (h : s.runState = .running) :
    ∃ t, step s = .next t ∧ (t.runState = .halted ↔ (stepFault config s).isSome = true) ∧
      (t.runState = .waitingForKey ↔
        s.pc.toNat + 1 < config.memSize ∧ (∃ x, decode config (wordAtPc s) = .instr (.ldVxK x)) ∧ ¬ AnyKey s) := by
  obtain ⟨hr, -⟩ | ⟨hr, -⟩ | ⟨-, hf, ht⟩ | ⟨w, -, hf, hd, ht⟩ | ⟨w, i, -, hf, hd, ht⟩ := step_cases s
  · cases h.symm.trans hr
  · cases h.symm.trans hr
  · have hpc := State.fetch_eq_none_iff.mp hf
    exact ⟨_, ht, by simp [stepFault_of_fetch_none hf], by simp [hpc]⟩
  · obtain ⟨hpc, rfl⟩ := State.fetch_eq_some_iff.mp hf
    exact ⟨_, ht, by simp [stepFault_of_unknownOpcode hpc hd], by simp [hd]⟩
  · obtain ⟨hpc, rfl⟩ := State.fetch_eq_some_iff.mp hf
    obtain ⟨t, he, hhalt, hwait⟩ := exec_runState i (s := s.countCycle) h
    refine ⟨t, ht.trans he, ?_, ?_⟩
    · simpa [stepFault_of_instr hpc hd] using hhalt
    · simpa [hpc, hd] using hwait

/-- A step out of `WaitingForKey`. -/
theorem step_runState_of_waiting {s : State} (h : s.runState = .waitingForKey) :
    ∃ t, step s = .next t ∧ (AnyKey s → t.runState = .running) ∧ (¬ AnyKey s → t.runState = .waitingForKey) := by
  refine ⟨_, stepWith_waiting h, ?_⟩
  cases hk : lowestPressed s.key with
  | some k =>
    simp [State.poll_some (s := s.countCycle) hk, anyKey_of_lowestPressed hk]
  | none =>
    have hno : ¬ AnyKey s := (lowestPressed_none_iff s).mp hk
    simp [State.poll_none (s := s.countCycle) hk, hno, h]

/-- No host call but `reset` and `step` changes the run state. -/
theorem perform_keeps_runState {s t : State} {r : Reply} {call : HostCall} (hreset : call ≠ .reset)
    (hstep : call ≠ .step) (h : perform call s = .next (r, t)) : t.runState = s.runState := by
  cases call with
  | reset => exact absurd rfl hreset
  | step => exact absurd rfl hstep
  | load bytes offset =>
    cases h
    by_cases hfit : offset.toNat + bytes.length ≤ config.memSize
    · rw [State.load_fits hfit]; rfl
    · rw [State.load_refused hfit]
  | flush =>
    cases h
    rw [State.flush_state]
  | tick | setKey | view | isHalted | diagnostics | soundActive =>
    cases h
    rfl

/-- Settles O12: each row of the table is the lemma about a step out of that run state. -/
theorem runStateTransitions : Obligations.RunStateTransitions := by
  unfold Obligations.RunStateTransitions
  refine ⟨fun s => ?_, fun s => ⟨_, rfl, rfl⟩, fun s t r call => perform_keeps_runState⟩
  cases hr : s.runState with
  | running =>
    obtain ⟨t, ht, hrun⟩ := step_runState_of_running hr
    exact ⟨t, ht, fun _ => hrun, nofun, nofun⟩
  | waitingForKey =>
    obtain ⟨t, ht, hwait⟩ := step_runState_of_waiting hr
    exact ⟨t, ht, nofun, fun _ => hwait, nofun⟩
  | halted => exact ⟨s, stepWith_halted hr, nofun, nofun, fun _ => hr⟩

end Sys2Proof.Machine
end

section
/-! PROOFS. What a step leaves to the host, and that it reads `Key` nowhere else (spec/40_engine_cycle.md R129). -/

namespace Sys2Proof.Machine

/-! ### What a step may write -/

/-- A fault writes `RunState` and `Diag` and nothing else (R305). -/
theorem takeFault_frame (s : State) (kind : FaultKind) (w : Word) :
    FrameBut [.runState, .diag] noReg noByte s (s.takeFault kind w) :=
  .of_parts rfl rfl

/-- A poll writes `V[WaitX]`, `PC` and `RunState` and nothing else (R124). -/
theorem poll_frame (s : State) : FrameBut [.pc, .runState] (fun y => y = s.waitX) noByte s s.poll := by
  cases h : lowestPressed s.key with
  | some k =>
    rw [State.poll_some h]
    exact .of_setReg rfl rfl rfl
  | none =>
    rw [State.poll_none h]
    exact .of_parts rfl rfl

/-- An item that an instruction does not write and a fault does not write is kept whatever the instruction answers. -/
theorem exec_keeps {p : Part} {i : Instr} {s t : State} (h : exec i s = .next t) (hp : p ∉ effects i)
    (hfault : p ∉ [Part.runState, .diag]) : Kept p s t := by
  obtain ⟨kind, -, ht⟩ | ⟨-, u, hu, hframe⟩ := exec_cases i s
  · cases ht.symm.trans h
    exact (takeFault_frame s kind (encode i)).others p hfault
  · cases hu.symm.trans h
    exact hframe.others p hp

/-- `Dirty`, once set, stays set: an instruction writes it only by painting the display. -/
theorem exec_keeps_dirty {i : Instr} {s t : State} (h : exec i s = .next t) (hs : s.dirty = true) : t.dirty = true := by
  by_cases hi : Part.dirty ∈ effects i
  · obtain rfl | ⟨x, y, n, rfl⟩ := dirty_mem_effects.mp hi
    · cases h
      rfl
    · obtain ⟨_, _, ht⟩ | ⟨hown, -⟩ := exec_cases (.drwVxVyN x y n) s
      · cases ht.symm.trans h
        exact hs
      · have hb : inBounds config s.i.toNat n.toNat = true := by simpa [ownFault_drwVxVyN] using hown
        cases (if_pos hb).symm.trans h
        rfl
  · exact (exec_keeps (p := .dirty) h hi (by simp)).trans hs

theorem exec_dt {i : Instr} {s t : State} (h : exec i s = .next t) :
    t.dt = s.dt ∨ ∃ x, i = .ldDtVx x ∧ t.dt = s.reg x := by
  by_cases hi : Part.dt ∈ effects i
  · obtain ⟨x, rfl⟩ := dt_mem_effects.mp hi
    cases h
    exact .inr ⟨x, rfl, rfl⟩
  · exact .inl (exec_keeps (p := .dt) h hi (by simp))

theorem exec_st {i : Instr} {s t : State} (h : exec i s = .next t) :
    t.st = s.st ∨ ∃ x, i = .ldStVx x ∧ t.st = s.reg x := by
  by_cases hi : Part.st ∈ effects i
  · obtain ⟨x, rfl⟩ := st_mem_effects.mp hi
    cases h
    exact .inr ⟨x, rfl, rfl⟩
  · exact .inl (exec_keeps (p := .st) h hi (by simp))

/-- A step executes the instruction its word decodes to, or writes at most `V[WaitX]`, `PC`, `RunState`, `Cycles` and
`Diag`. -/
theorem step_executes_or_keeps {s t : State} (h : step s = .next t) :
    (∃ i, decode config (wordAtPc s) = .instr i ∧ exec i s.countCycle = .next t) ∨
    FrameBut [.pc, .runState, .cycles, .diag] (fun y => y = s.waitX) noByte s t := by
  have hcount : FrameBut [.cycles] noReg noByte s s.countCycle := .of_parts rfl rfl
  obtain ⟨-, ht⟩ | ⟨-, ht⟩ | ⟨-, -, ht⟩ | ⟨w, -, -, -, ht⟩ | ⟨w, i, -, hf, hd, ht⟩ := step_cases s
  · cases ht.symm.trans h
    exact .inr (.of_parts rfl rfl)
  · cases ht.symm.trans h
    exact .inr ((hcount.trans (poll_frame s.countCycle)).mono (by simp) (by simp [noReg]) (by simp))
  · cases ht.symm.trans h
    exact .inr ((hcount.trans (takeFault_frame _ _ _)).mono (by simp) (by simp [noReg]) (by simp))
  · cases ht.symm.trans h
    exact .inr ((hcount.trans (takeFault_frame _ _ _)).mono (by simp) (by simp [noReg]) (by simp))
  · obtain ⟨-, rfl⟩ := State.fetch_eq_some_iff.mp hf
    exact .inl ⟨i, hd, ht.symm.trans h⟩

/-- The first sentence of R129. -/
theorem step_timers_key_dirty {s t : State} (h : step s = .next t) :
    t.key = s.key ∧ (s.dirty = true → t.dirty = true) ∧
    (t.dt = s.dt ∨ ∃ x, decode config (wordAtPc s) = .instr (.ldDtVx x) ∧ t.dt = s.reg x) ∧
    (t.st = s.st ∨ ∃ x, decode config (wordAtPc s) = .instr (.ldStVx x) ∧ t.st = s.reg x) := by
  obtain ⟨i, hd, he⟩ | hframe := step_executes_or_keeps h
  · have hkey : t.key = s.countCycle.key := exec_keeps (p := .key) he (key_notMem_effects i) (by simp)
    refine ⟨hkey, exec_keeps_dirty (s := s.countCycle) he, ?_, ?_⟩
    · exact (exec_dt he).imp_right fun ⟨x, hi, hx⟩ => ⟨x, hi ▸ hd, hx⟩
    · exact (exec_st he).imp_right fun ⟨x, hi, hx⟩ => ⟨x, hi ▸ hd, hx⟩
  · have hdirty : t.dirty = s.dirty := hframe.others .dirty (by simp)
    exact ⟨hframe.others .key (by simp), hdirty.trans, .inl (hframe.others .dt (by simp)),
      .inl (hframe.others .st (by simp))⟩

/-! ### The same step under other keys (R129) -/

/-- `Key` replaced as a whole. -/
def State.withKeys (keys : Vector Bool 16) (s : State) : State := { s with key := keys }

theorem State.pop_withKeys (keys : Vector Bool 16) (s : State) :
    (s.withKeys keys).pop = s.pop.map fun r => (r.1, r.2.withKeys keys) := by
  symm
  exact apply_dite (Option.map _) _ _ _

theorem State.push_withKeys (keys : Vector Bool 16) (s : State) (a : Word) :
    (s.withKeys keys).push a = (s.push a).map (State.withKeys keys) := by
  symm
  exact apply_dite (Option.map (State.withKeys keys)) _ _ _

/-- An instruction that does not read `Key` does the same under any keys. -/
theorem exec_withKeys {i : Instr} (hi : readsKey i = false) (keys : Vector Bool 16) (s : State) :
    exec i (s.withKeys keys) = mapAnswer (State.withKeys keys) (exec i s) := by
  cases i with
  | skpVx | sknpVx | ldVxK => cases hi
  | ret =>
    simp only [exec, execRet, State.pop_withKeys]
    cases s.pop <;> rfl
  | callNnn nnn =>
    have hpush : (s.withKeys keys).push (s.withKeys keys).pc = (s.push s.pc).map (State.withKeys keys) :=
      s.push_withKeys keys s.pc
    simp only [exec, execCallNnn, hpush]
    cases s.push s.pc <;> rfl
  | drwVxVyN | ldBVx | ldMemVx | ldVxMem =>
    symm
    exact apply_ite (mapAnswer (State.withKeys keys)) _ _ _
  | _ => rfl

/-- A step that is no poll and executes no instruction reading `Key` does the same under any keys. -/
theorem step_withKeys {s : State} (keys : Vector Bool 16) (hpoll : s.runState ≠ .waitingForKey)
    (hread : ∀ i, decode config (wordAtPc s) = .instr i → readsKey i = false) :
    step (s.withKeys keys) = mapAnswer (State.withKeys keys) (step s) := by
  cases hr : s.runState with
  | waitingForKey => exact absurd hr hpoll
  | halted =>
    have h : step s = .next s := stepWith_halted hr
    rw [h]
    exact stepWith_halted hr
  | running =>
    cases hf : s.countCycle.fetchInstr config with
    | error r =>
      have h : step s = .next (s.countCycle.takeFault r.1 r.2) := stepWith_running_fault hr hf
      rw [h]
      exact stepWith_running_fault hr hf
    | ok i =>
      obtain ⟨w, hw, hd⟩ := State.fetchInstr_eq_ok hf
      obtain ⟨-, rfl⟩ := State.fetch_eq_some hw
      calc step (s.withKeys keys) = exec i (s.countCycle.withKeys keys) := stepWith_running_ok hr hf
        _ = mapAnswer (State.withKeys keys) (exec i s.countCycle) := exec_withKeys (hread i hd) keys s.countCycle
        _ = mapAnswer (State.withKeys keys) (step s) := congrArg _ (stepWith_running_ok hr hf).symm

/-- Settles O13: the items a step may write, and the two runs that differ in `Key` alone. -/
theorem stepLeavesTimersKeysAndDirtyAlone : Obligations.StepLeavesTimersKeysAndDirtyAlone := by
  unfold Obligations.StepLeavesTimersKeysAndDirtyAlone
  exact ⟨fun _ _ => step_timers_key_dirty, fun _ keys => step_withKeys keys⟩

end Sys2Proof.Machine
end

section
/-! PROOFS. The jump, the return and the skips against an immediate (spec/42_control_flow.md R171, R172, R175, R176). -/

namespace Sys2Proof.Machine

/-! ### Jumps -/

/-- Settles O29: JP sets `PC` and does nothing else. -/
theorem jumpTakesItsTarget : Obligations.JumpTakesItsTarget := by
  unfold Obligations.JumpTakesItsTarget
  exact fun nnn s => ⟨rfl, s.setPc (zextAddr nnn), rfl, jumpResult_setPc s (zextAddr nnn)⟩

/-! ### Returns -/

/-- A pop answers when the stack holds an entry, and the entry it answers is the last one in use. -/
theorem State.pop_of_sp_eq_succ {s : State} {k : Nat} (hk : k < 16) (h : s.sp.val = k + 1) :
    s.pop = some (s.stack[k], { s with sp := ⟨k, by omega⟩ }) := by
  simp [State.pop, h]

/-- Settles O32: a return pops where the stack holds an entry, and takes its own fault where it holds none. -/
theorem returnPopsAndAddsTwo : Obligations.ReturnPopsAndAddsTwo := by
  unfold Obligations.ReturnPopsAndAddsTwo
  refine ⟨rfl, fun s => ⟨fun k hk hsp => ?_, fun hsp => ?_⟩⟩
  · have hret := execIn_ret_of_pop (cfg := config) (State.pop_of_sp_eq_succ hk hsp)
    exact ⟨_, (exec_eq_execIn .ret s).trans hret, rfl, rfl, .of_parts rfl rfl⟩
  · have hfault : ownFault config .ret s = some .stackUnderflow := if_pos hsp
    exact (exec_eq_execIn .ret s).trans (execIn_of_ownFault hfault)

/-! ### Skips -/

/-- A skip on a test of `p` changes `PC` alone, by 4 where `p` holds and by 2 where it does not (R127, R179). -/
theorem jumpResult_skipIf (s : State) {c : Bool} {p : Prop} [Decidable p] (h : c = true ↔ p) :
    JumpResult s (s.skipIf c) (s.pc + if p then 4#16 else 2#16) := by
  simp only [State.skipIf, h]
  exact jumpResult_setPc s _

/-- Settles O34: SE skips on the test of equality, SNE on that of inequality. -/
theorem skipsAgainstAnImmediate : Obligations.SkipsAgainstAnImmediate := by
  unfold Obligations.SkipsAgainstAnImmediate
  exact fun x kk s => ⟨rfl, rfl, ⟨_, rfl, jumpResult_skipIf s beq_iff_eq⟩, ⟨_, rfl, jumpResult_skipIf s bne_iff_ne⟩⟩

end Sys2Proof.Machine
end

section
/-! PROOFS. The loads into a register and the add of an immediate (spec/43_arithmetic_logic.md R200, R201, R202). -/

namespace Sys2Proof.Machine

/-- Settles O18: LD Vx,kk writes `kk` and advances. -/
theorem loadImmediateResult : Obligations.LoadImmediateResult := by
  unfold Obligations.LoadImmediateResult
  exact fun x kk s => ⟨rfl, _, rfl, plainResult_setReg s x kk⟩

/-- The sum of two bytes is their sum as numbers, modulo 256 (R201, R206). -/
theorem byteAdd_eq_ofNat_mod (a b : Byte) : a + b = BitVec.ofNat 8 ((a.toNat + b.toNat) % 256) :=
  BitVec.eq_of_toNat_eq (by simp [BitVec.toNat_add])

/-- Settles O19: ADD Vx,kk writes the byte sum, with no flag, and advances. -/
theorem addImmediateResult : Obligations.AddImmediateResult := by
  unfold Obligations.AddImmediateResult
  intro x kk s
  rw [← byteAdd_eq_ofNat_mod]
  exact ⟨rfl, _, rfl, plainResult_setReg s x (s.reg x + kk)⟩

/-- Settles O20: LD Vx,Vy writes the byte of `V[y]` and advances. -/
theorem copyResult : Obligations.CopyResult := by
  unfold Obligations.CopyResult
  exact fun x y s => ⟨rfl, _, rfl, plainResult_setReg s x (s.reg y)⟩

end Sys2Proof.Machine
end

section
/-! PROOFS. The load of an address into the index register (spec/44_index_memory.md R230). -/

namespace Sys2Proof.Machine

/-- Setting `I` and advancing writes `I` and `PC` and nothing else. -/
theorem setI_advance_frame (s : State) (a : Word) : FrameBut [.index, .pc] noReg noByte s (s.setI a).advance :=
  .of_parts rfl rfl

/-- Settles O36: LD I,nnn sets `I` to the address, zero-extended, and advances. -/
theorem setIndexResult : Obligations.SetIndexResult := by
  unfold Obligations.SetIndexResult
  exact fun nnn s => ⟨rfl, (s.setI (zextAddr nnn)).advance, rfl, rfl, rfl, setI_advance_frame s (zextAddr nnn)⟩

end Sys2Proof.Machine
end

section
/-! PROOFS. The timer loads and the wait for a key (spec/45_timers_keys.md R250, R251, R252, R255). -/

namespace Sys2Proof.Machine

/-! ### Timers -/

/-- Setting `DT` and advancing writes `DT` and `PC` and nothing else. -/
theorem setDt_advance_frame (s : State) (b : Byte) : FrameBut [.dt, .pc] noReg noByte s (s.setDt b).advance :=
  .of_parts rfl rfl

/-- Setting `ST` and advancing writes `ST` and `PC` and nothing else. -/
theorem setSt_advance_frame (s : State) (b : Byte) : FrameBut [.st, .pc] noReg noByte s (s.setSt b).advance :=
  .of_parts rfl rfl

/-- The sound is active exactly while `ST` is not 0. -/
theorem State.soundActive_eq_decide (s : State) : s.soundActive = decide (s.st ≠ 0x00#8) :=
  Bool.eq_iff_iff.mpr (bne_iff_ne.trans decide_eq_true_iff.symm)

/-- Settles O44: each load writes its one destination and advances; the sound follows the new `ST`. -/
theorem timerMoves : Obligations.TimerMoves := by
  unfold Obligations.TimerMoves
  intro x s
  refine ⟨rfl, rfl, rfl, ?readDt, ?writeDt, ?writeSt⟩
  case readDt => exact ⟨_, rfl, plainResult_setReg s x s.dt⟩
  case writeDt => exact ⟨(s.setDt (s.reg x)).advance, rfl, rfl, rfl, setDt_advance_frame s (s.reg x)⟩
  case writeSt =>
    exact ⟨(s.setSt (s.reg x)).advance, rfl, rfl, rfl, State.soundActive_eq_decide _, setSt_advance_frame s (s.reg x)⟩

/-! ### The wait for a key -/

/-- Waiting writes `WaitX` and `RunState` and nothing else. -/
theorem waitForKey_frame (s : State) (x : RegIdx) : FrameBut [.waitX, .runState] noReg noByte s (s.waitForKey x) :=
  .of_parts rfl rfl

/-- Settles O46: by whether some key is held, the lowest key is written as a plain result, or the wait begins. -/
theorem waitForKeyResult : Obligations.WaitForKeyResult := by
  unfold Obligations.WaitForKeyResult
  refine fun x s => ⟨rfl, fun k hk => ?_, fun hno => ?_⟩
  · have hexec := execIn_ldVxK_of_some (cfg := config) (x := x) ((lowestPressed_some_iff s k).mpr hk)
    obtain ⟨hreg, hpc, hframe⟩ := plainResult_setReg s x (keyByte k)
    exact ⟨_, (exec_eq_execIn _ s).trans hexec, by rw [hreg, keyByte_toNat], hpc, hframe⟩
  · have hexec := execIn_ldVxK_of_none (cfg := config) (x := x) ((lowestPressed_none_iff s).mpr hno)
    exact ⟨_, (exec_eq_execIn _ s).trans hexec, rfl, rfl, waitForKey_frame s x⟩

end Sys2Proof.Machine
end

section
/-! PROOFS. The decoder and the encoder undo each other, and the decoder refuses exactly the listed words
(spec/30_encoding.md R93 to R101). -/

namespace Sys2Proof

/-! ### Decoding the word of an instruction -/

theorem formatA_inj {c : Nibble} {a b : Addr} : formatA c a = formatA c b ↔ a = b :=
  ⟨fun h => by simpa using congrArg fieldNnn h, congrArg _⟩

/-- Class 0x0 by all 16 bits (R94). -/
theorem decode_formatA_class0 (cfg : Config) (nnn : Addr) : decode cfg (formatA 0x0#4 nnn) =
    if nnn = 0x0E0#12 then .instr .cls else if nnn = 0x0EE#12 then .instr .ret else .instr (.sysNnn nnn) := by
  have hcls : formatA 0x0#4 nnn = 0x00E0#16 ↔ nnn = 0x0E0#12 := formatA_inj (b := 0x0E0#12)
  have hret : formatA 0x0#4 nnn = 0x00EE#16 ↔ nnn = 0x0EE#12 := formatA_inj (b := 0x0EE#12)
  simp only [decode, decodeClass0, fieldClass_formatA, fieldNnn_formatA, hcls, hret]

/-- Settles O6: each class from its format's fields. -/
theorem decodingOfTheOpenClasses : Obligations.DecodingOfTheOpenClasses := by
  unfold Obligations.DecodingOfTheOpenClasses
  refine fun cfg => ⟨decode_formatA_class0 cfg, ?class5, ?class9, ?classB⟩
  case class5 => simp [decode]
  case class9 => simp [decode]
  case classB => intro nnn; cases hmode : cfg.bnnnMode <;> simp [decode, decodeClassB, hmode]

/-- Settles O1: the fields of each format are read back; only SYS and JP V0 need the two checks of well-formedness. -/
theorem decodeEncodeRoundTrip : Obligations.DecodeEncodeRoundTrip := by
  unfold Obligations.DecodeEncodeRoundTrip
  intro cfg i hwf
  cases i with
  | cls | ret => rfl
  | sysNnn nnn =>
    obtain ⟨hcls, hret⟩ : nnn ≠ 0x0E0#12 ∧ nnn ≠ 0x0EE#12 := by simpa [Instr.wellFormed] using hwf
    exact (decode_formatA_class0 cfg nnn).trans (by simp [hcls, hret])
  | jpV0Nnn nnn =>
    have hmode : cfg.bnnnMode = .jumpV0 := by simpa [Instr.wellFormed] using hwf
    simp [encode, decode, decodeClassB, hmode]
  | jpNnn | callNnn | ldINnn | seVxKk | sneVxKk | ldVxKk | addVxKk | rndVxKk | seVxVy | sneVxVy | drwVxVyN =>
    simp [encode, decode]
  | ldVxVy | orVxVy | andVxVy | xorVxVy | addVxVy | subVxVy | shrVxVy | subnVxVy | shlVxVy =>
    simp [encode, decode, decodeClass8]
  | skpVx | sknpVx => simp [encode, decode, decodeClassE, formatX_eq]
  | ldVxDt | ldVxK | ldDtVx | ldStVx | addIVx | ldFVx | ldBVx | ldMemVx | ldVxMem =>
    simp [encode, decode, decodeClassF, formatX_eq]

/-- Settles O5: the sixteen words, decoded one by one. -/
theorem decodingOfTheListedWords : Obligations.DecodingOfTheListedWords := by
  unfold Obligations.DecodingOfTheListedWords
  decide

/-! ### Encoding the instruction of a word -/

theorem formatA_of_class {w : Word} {c : Nibble} (h : fieldClass w = c) : formatA c (fieldNnn w) = w :=
  h ▸ formatA_fields w

theorem formatXK_of_class {w : Word} {c : Nibble} (h : fieldClass w = c) : formatXK c (fieldX w) (fieldKk w) = w :=
  h ▸ formatXK_fields w

theorem formatXYN_of_class {w : Word} {c n : Nibble} (h : fieldClass w = c) (hn : fieldN w = n) :
    formatXYN c (fieldX w) (fieldY w) n = w :=
  h ▸ hn ▸ formatXYN_fields w

theorem formatX_of_class {w : Word} {c : Nibble} {sub : Byte} (h : fieldClass w = c) (hk : fieldKk w = sub) :
    formatX c (fieldX w) sub = w :=
  h ▸ hk ▸ formatXK_fields w

/-- Class 0x0: the words of CLS and RET stand for those, every other one for SYS (R94). -/
theorem encode_of_decodeClass0 (cfg : Config) {w : Word} {i : Instr} (hc : fieldClass w = 0x0#4)
    (h : decodeClass0 w = .instr i) : i.wellFormed cfg = true ∧ encode i = w := by
  have hw : formatA 0x0#4 (fieldNnn w) = w := formatA_of_class hc
  unfold decodeClass0 at h
  split at h
  · next hcls => cases h; exact ⟨rfl, hcls.symm⟩
  · next hcls =>
    split at h
    · next hret => cases h; exact ⟨rfl, hret.symm⟩
    · next hret =>
      cases h
      refine ⟨?_, hw⟩
      have hcls' : fieldNnn w ≠ 0x0E0#12 := fun e => hcls (hw.symm.trans (congrArg (formatA 0x0#4) e))
      have hret' : fieldNnn w ≠ 0x0EE#12 := fun e => hret (hw.symm.trans (congrArg (formatA 0x0#4) e))
      simp [Instr.wellFormed, hcls', hret']

/-- Class 0x8 (R96). -/
theorem encode_of_decodeClass8 (cfg : Config) {w : Word} {i : Instr} (hc : fieldClass w = 0x8#4)
    (h : decodeClass8 w = .instr i) : i.wellFormed cfg = true ∧ encode i = w := by
  unfold decodeClass8 at h
  split at h <;> cases h <;> exact ⟨rfl, formatXYN_of_class hc ‹_›⟩

/-- Class 0xB (R99). -/
theorem encode_of_decodeClassB {cfg : Config} {w : Word} {i : Instr} (hc : fieldClass w = 0xB#4)
    (h : decodeClassB cfg w = .instr i) : i.wellFormed cfg = true ∧ encode i = w := by
  unfold decodeClassB at h
  split at h <;> cases h
  next hmode => exact ⟨by simp [Instr.wellFormed, hmode], formatA_of_class hc⟩

/-- Class 0xE (R97). -/
theorem encode_of_decodeClassE (cfg : Config) {w : Word} {i : Instr} (hc : fieldClass w = 0xE#4)
    (h : decodeClassE w = .instr i) : i.wellFormed cfg = true ∧ encode i = w := by
  unfold decodeClassE at h
  split at h <;> cases h <;> exact ⟨rfl, formatX_of_class hc ‹_›⟩

/-- Class 0xF (R98). -/
theorem encode_of_decodeClassF (cfg : Config) {w : Word} {i : Instr} (hc : fieldClass w = 0xF#4)
    (h : decodeClassF w = .instr i) : i.wellFormed cfg = true ∧ encode i = w := by
  unfold decodeClassF at h
  split at h <;> cases h <;> exact ⟨rfl, formatX_of_class hc ‹_›⟩

/-- Outside classes 0x5 and 0x9 a decoded word is its instruction's word (R93). The cases are the arms of `decode` in order, the
first for class 0x0. -/
theorem encode_of_decode {cfg : Config} {w : Word} {i : Instr} (h5 : fieldClass w ≠ 0x5#4) (h9 : fieldClass w ≠ 0x9#4)
    (h : decode cfg w = .instr i) : i.wellFormed cfg = true ∧ encode i = w := by
  unfold decode at h
  split at h
  case h_1 hc => exact encode_of_decodeClass0 cfg hc h
  case h_9 hc => exact encode_of_decodeClass8 cfg hc h
  case h_12 hc => exact encode_of_decodeClassB hc h
  case h_15 hc => exact encode_of_decodeClassE cfg hc h
  case h_16 hc => exact encode_of_decodeClassF cfg hc h
  case h_2 hc | h_3 hc | h_11 hc => cases h; exact ⟨rfl, formatA_of_class hc⟩
  case h_4 hc | h_5 hc | h_7 hc | h_8 hc | h_13 hc => cases h; exact ⟨rfl, formatXK_of_class hc⟩
  case h_14 hc => cases h; exact ⟨rfl, formatXYN_of_class hc rfl⟩
  case h_6 hc => exact absurd hc h5
  case h_10 hc => exact absurd hc h9
  case h_17 => cases h

theorem decode_class5 (cfg : Config) {w : Word} (h : fieldClass w = 0x5#4) :
    decode cfg w = .instr (.seVxVy (fieldX w) (fieldY w)) := by
  simp [decode, h]

theorem decode_class9 (cfg : Config) {w : Word} (h : fieldClass w = 0x9#4) :
    decode cfg w = .instr (.sneVxVy (fieldX w) (fieldY w)) := by
  simp [decode, h]

/-- What a decoded word stands for: an instruction whose word it is, or a skip between registers, whose word it is but for
the ignored row count (R93, R95). -/
theorem decode_cases {cfg : Config} {w : Word} {i : Instr} (h : decode cfg w = .instr i) :
    (canonicalWord w = w ∧ i.wellFormed cfg = true ∧ encode i = w) ∨
    (canonicalWord w = w &&& 0xFFF0#16 ∧ fieldClass w = 0x5#4 ∧ i = .seVxVy (fieldX w) (fieldY w)) ∨
    (canonicalWord w = w &&& 0xFFF0#16 ∧ fieldClass w = 0x9#4 ∧ i = .sneVxVy (fieldX w) (fieldY w)) := by
  by_cases h5 : fieldClass w = 0x5#4
  · exact .inr (.inl ⟨if_pos (.inl h5), h5, Decoded.instr.inj (h.symm.trans (decode_class5 cfg h5))⟩)
  · by_cases h9 : fieldClass w = 0x9#4
    · exact .inr (.inr ⟨if_pos (.inr h9), h9, Decoded.instr.inj (h.symm.trans (decode_class9 cfg h9))⟩)
    · exact .inl ⟨if_neg (not_or.mpr ⟨h5, h9⟩), encode_of_decode h5 h9 h⟩

/-- Settles O2: the word itself, or the masked word of a skip between registers. -/
theorem decodedWordsReencode : Obligations.DecodedWordsReencode := by
  unfold Obligations.DecodedWordsReencode
  intro cfg w i h
  obtain ⟨hw, hwf, hi⟩ | ⟨hw, hc, rfl⟩ | ⟨hw, hc, rfl⟩ := decode_cases h
  · exact ⟨hwf, hi.trans hw.symm⟩
  · exact ⟨rfl, by rw [hw, and_maskFFF0, hc]; rfl⟩
  · exact ⟨rfl, by rw [hw, and_maskFFF0, hc]; rfl⟩

/-! ### The opcode table -/

/-- The word of every instruction lies in its own row of the opcode table. -/
theorem encode_and_tableMask (i : Instr) : encode i &&& tableMask i = tableMatch i := by
  cases i with
  | cls => exact Laws.MatchesTable.cls
  | ret => exact Laws.MatchesTable.ret
  | sysNnn | jpNnn | callNnn | ldINnn | jpV0Nnn => exact Laws.formatA_masked rfl
  | seVxKk | sneVxKk | ldVxKk | addVxKk | rndVxKk => exact Laws.formatXK_masked rfl
  | seVxVy | sneVxVy | drwVxVyN => exact Laws.formatXYN_masked rfl
  | ldVxVy | orVxVy | andVxVy | xorVxVy | addVxVy | subVxVy | shrVxVy | subnVxVy | shlVxVy =>
    exact Laws.formatXYN_sub_masked rfl
  | skpVx | sknpVx | ldVxDt | ldVxK | ldDtVx | ldStVx | addIVx | ldFVx | ldBVx | ldMemVx | ldVxMem =>
    exact Laws.formatX_masked rfl

/-- Settles O3: a decoded word is its instruction's word, or lies in the row of a skip between registers by its class. -/
theorem decodedWordsMatchTheirRow : Obligations.DecodedWordsMatchTheirRow := by
  unfold Obligations.DecodedWordsMatchTheirRow
  intro cfg w i h
  obtain ⟨-, -, hi⟩ | ⟨-, hc, rfl⟩ | ⟨-, hc, rfl⟩ := decode_cases h
  · exact hi ▸ encode_and_tableMask i
  · exact (and_maskF000 w).trans (by rw [hc]; rfl)
  · exact (and_maskF000 w).trans (by rw [hc]; rfl)

/-! ### The illegal words (R101) -/

/-- The sixteen values of a four-bit field. -/
theorem nibble_mem_values (c : Nibble) : c ∈ [0x0#4, 0x1#4, 0x2#4, 0x3#4, 0x4#4, 0x5#4, 0x6#4, 0x7#4, 0x8#4, 0x9#4, 0xA#4,
    0xB#4, 0xC#4, 0xD#4, 0xE#4, 0xF#4] := by
  revert c
  decide

theorem decodeClass0_ne_unknownOpcode (w : Word) : decodeClass0 w ≠ .unknownOpcode := by
  unfold decodeClass0
  split
  · nofun
  · split <;> nofun

theorem decodeClass8_eq_unknownOpcode {w : Word} :
    decodeClass8 w = .unknownOpcode ↔ fieldN w ∈ [0x8#4, 0x9#4, 0xA#4, 0xB#4, 0xC#4, 0xD#4, 0xF#4] := by
  unfold decodeClass8
  split
  case h_10 =>
    have hn := nibble_mem_values (fieldN w)
    simp_all
  all_goals simp [*]

theorem decodeClassB_eq_unknownOpcode {cfg : Config} {w : Word} :
    decodeClassB cfg w = .unknownOpcode ↔ cfg.bnnnMode = .unknown := by
  unfold decodeClassB
  split <;> simp [*]

theorem decodeClassE_eq_unknownOpcode {w : Word} :
    decodeClassE w = .unknownOpcode ↔ fieldKk w ∉ [0x9E#8, 0xA1#8] := by
  unfold decodeClassE
  split <;> simp_all

theorem decodeClassF_eq_unknownOpcode {w : Word} : decodeClassF w = .unknownOpcode ↔
    fieldKk w ∉ [0x07#8, 0x0A#8, 0x15#8, 0x18#8, 0x1E#8, 0x29#8, 0x33#8, 0x55#8, 0x65#8] := by
  unfold decodeClassF
  split <;> simp_all

/-- Settles O4: by the arms of `decode` in order, the first for class 0x0; four classes refuse words, each its own, and the
last arm is never reached. -/
theorem illegalWordsAreExactlyTheListed : Obligations.IllegalWordsAreExactlyTheListed := by
  unfold Obligations.IllegalWordsAreExactlyTheListed
  intro cfg w
  unfold decode
  split
  case h_1 hc => simp [hc, decodeClass0_ne_unknownOpcode]
  case h_9 hc => simp only [hc, decodeClass8_eq_unknownOpcode]; simp
  case h_12 hc => simp [hc, decodeClassB_eq_unknownOpcode]
  case h_15 hc => simp only [hc, decodeClassE_eq_unknownOpcode]; simp
  case h_16 hc => simp only [hc, decodeClassF_eq_unknownOpcode]; simp
  case h_17 =>
    have hc := nibble_mem_values (fieldClass w)
    simp_all
  all_goals simp [*]

end Sys2Proof
end

section
/-! PROOFS. What a step does: it always answers, it executes the instruction decoded at `PC`, and its faults are precise and
ordered (spec/40_engine_cycle.md R120 to R124; spec/60_exceptions.md R300 to R308). -/

namespace Sys2Proof.Machine

/-! ### A step answers, and what it executes -/

/-- Settles O10: the first case of a step. -/
theorem haltedStepChangesNothing : Obligations.HaltedStepChangesNothing := by
  unfold Obligations.HaltedStepChangesNothing
  exact fun _ => stepWith_halted

/-- Settles O8: each case of a step answers, an instruction by its own fault or its completion. -/
theorem stepAlwaysAnswersANextState : Obligations.StepAlwaysAnswersANextState := by
  unfold Obligations.StepAlwaysAnswersANextState
  intro s
  obtain ⟨-, ht⟩ | ⟨-, ht⟩ | ⟨-, -, ht⟩ | ⟨_, -, -, -, ht⟩ | ⟨_, i, -, -, -, ht⟩ := step_cases s
  · exact ⟨_, ht⟩
  · exact ⟨_, ht⟩
  · exact ⟨_, ht⟩
  · exact ⟨_, ht⟩
  · obtain ⟨_, -, hu⟩ | ⟨-, u, hu, -⟩ := exec_cases i s.countCycle
    · exact ⟨_, ht.trans hu⟩
    · exact ⟨u, ht.trans hu⟩

/-- A step as a host call. -/
theorem perform_step {s t : State} (h : step s = .next t) : perform .step s = .next (.nothing, t) := by
  simp only [perform, performIn, ← step_eq_stepIn, h, replyNothing]

theorem fetchInstr_of_decode {cfg : Config} {s : State} {i : Instr} (hpc : s.pc.toNat + 1 < cfg.memSize)
    (hd : decode cfg (wordAtPc s) = .instr i) : s.fetchInstr cfg = .ok i := by
  simp [State.fetchInstr, State.fetch_eq_some_iff.mpr ⟨hpc, rfl⟩, hd]

theorem fetchInstr_of_fetch_none {cfg : Config} {s : State} (h : s.fetch cfg = none) :
    s.fetchInstr cfg = .error (.memoryOutOfBounds, 0x0000#16) := by
  simp [State.fetchInstr, h]

theorem fetchInstr_of_unknownOpcode {cfg : Config} {s : State} (hpc : s.pc.toNat + 1 < cfg.memSize)
    (hd : decode cfg (wordAtPc s) = .unknownOpcode) : s.fetchInstr cfg = .error (.unknownOpcode, wordAtPc s) := by
  simp [State.fetchInstr, State.fetch_eq_some_iff.mpr ⟨hpc, rfl⟩, hd]

/-- Settles O7: the fetched word decodes, so the step is its execution with `Cycles` counted. -/
theorem stepRunsTheDecodedInstruction : Obligations.StepRunsTheDecodedInstruction := by
  unfold Obligations.StepRunsTheDecodedInstruction
  exact fun s i hr hpc hd => stepWith_running_ok hr (fetchInstr_of_decode (s := s.countCycle) hpc hd)

/-! ### Every instruction at every configuration -/

/-- A claim made at every configuration holds of this package's machine, which is the one at `config`. -/
theorem EveryRun.of_execIn {claim : Config → (Instr → State → Answer) → Prop} (h : ∀ cfg, claim cfg (execIn cfg)) :
    EveryRun claim := by
  have hexec : exec = execIn config := funext fun i => funext (exec_eq_execIn i)
  exact ⟨hexec ▸ h config, h⟩

/-- Settles O17: by whether the instruction's own fault condition holds. -/
theorem everyInstructionCompletesOrFaults : Obligations.EveryInstructionCompletesOrFaults := by
  unfold Obligations.EveryInstructionCompletesOrFaults
  refine .of_execIn fun cfg i s => ?_
  cases hown : ownFault cfg i s with
  | some kind => exact execIn_of_ownFault hown
  | none => exact execIn_frame hown

/-! ### Faults -/

theorem diag_notMem_effects (i : Instr) : Part.diag ∉ effects i := by
  cases i <;> simp [effects]

theorem cycles_notMem_effects (i : Instr) : Part.cycles ∉ effects i := by
  cases i <;> simp [effects]

/-- An instruction that can fault is the one its word was fetched as: only skips between registers have several words. -/
theorem encode_of_decode_of_ownFault {cfg : Config} {w : Word} {i : Instr} {s : State} {kind : FaultKind}
    (hd : decode cfg w = .instr i) (hown : ownFault cfg i s = some kind) : encode i = w := by
  obtain ⟨-, -, hi⟩ | ⟨-, -, rfl⟩ | ⟨-, -, rfl⟩ := decode_cases hd
  · exact hi
  · cases hown
  · cases hown

/-- An instruction that completes does not halt a running engine. -/
theorem execIn_not_halted {cfg : Config} {i : Instr} {s t : State} (hr : s.runState = .running)
    (hown : ownFault cfg i s = none) (h : execIn cfg i s = .next t) : t.runState ≠ .halted := by
  by_cases hi : ∃ x, i = .ldVxK x
  · obtain ⟨x, rfl⟩ := hi
    cases hk : lowestPressed s.key with
    | some k =>
      cases (execIn_ldVxK_of_some hk).symm.trans h
      simp [hr]
    | none =>
      cases (execIn_ldVxK_of_none hk).symm.trans h
      simp
  · obtain ⟨u, hu, hframe⟩ := execIn_frame hown
    cases hu.symm.trans h
    have hkept : t.runState = s.runState := hframe.others .runState (mt runState_mem_effects.mp hi)
    simp [hkept, hr]

/-- Settles O9: in the order of R308, by the fetch, the decoding and the instruction's own condition. -/
theorem faultsArePreciseAndOrdered : Obligations.FaultsArePreciseAndOrdered := by
  unfold Obligations.FaultsArePreciseAndOrdered
  refine ⟨step_eq_stepIn, fun cfg s hr => ?_⟩
  cases hf : s.fetch cfg with
  | none =>
    rw [stepFault_of_fetch_none hf]
    exact stepWith_running_fault hr (fetchInstr_of_fetch_none hf)
  | some w =>
    obtain ⟨hpc, rfl⟩ := State.fetch_eq_some_iff.mp hf
    cases hd : decode cfg (wordAtPc s) with
    | unknownOpcode =>
      rw [stepFault_of_unknownOpcode hpc hd]
      exact stepWith_running_fault hr (fetchInstr_of_unknownOpcode hpc hd)
    | instr i =>
      have hstep : stepIn cfg s = execIn cfg i s.countCycle := stepWith_running_ok hr (fetchInstr_of_decode hpc hd)
      rw [stepFault_of_instr hpc hd, hstep]
      cases hown : ownFault cfg i s with
      | some kind =>
        rw [← encode_of_decode_of_ownFault hd hown]
        exact execIn_of_ownFault ((ownFault_countCycle cfg i s).trans hown)
      | none =>
        have hown' : ownFault cfg i s.countCycle = none := (ownFault_countCycle cfg i s).trans hown
        obtain ⟨t, ht, hframe⟩ := execIn_frame hown'
        exact ⟨t, ht, execIn_not_halted (s := s.countCycle) hr hown' ht, hframe.others .diag (diag_notMem_effects i),
          hframe.others .cycles (cycles_notMem_effects i)⟩

/-! ### Waiting -/

/-- A poll with no key pressed changes `Cycles` alone (R124, D17). -/
theorem step_waiting_of_not_anyKey {s : State} (hr : s.runState = .waitingForKey) (hno : ¬ AnyKey s) :
    step s = .next s.countCycle := by
  have hk : lowestPressed s.countCycle.key = none := (lowestPressed_none_iff s).mpr hno
  exact (stepWith_waiting hr).trans (congrArg _ (State.poll_none hk))

/-- Settles O11: by whether some key is pressed. -/
theorem waitPollTakesTheLowestKey : Obligations.WaitPollTakesTheLowestKey := by
  unfold Obligations.WaitPollTakesTheLowestKey
  refine fun s hr => ⟨fun k hk => ?_, step_waiting_of_not_anyKey hr⟩
  have hkey : lowestPressed s.countCycle.key = some k := (lowestPressed_some_iff s k).mpr hk
  have hstep : step s = .next (s.countCycle.setReg s.waitX (keyByte k)).advance.resume :=
    (stepWith_waiting hr).trans (congrArg _ (State.poll_some hkey))
  exact ⟨_, hstep, by simp, rfl, rfl, rfl, .of_setReg (x := s.waitX) (b := keyByte k) rfl rfl rfl⟩

/-! ### Runs -/

/-- Where every step only counts the cycle, and that goes on, so does any number of steps. -/
theorem runSteps_of_step_counts {P : State → Prop} (hkept : ∀ s, P s → P s.countCycle)
    (hstep : ∀ s, P s → step s = .next s.countCycle) (k : Nat) :
    ∀ s, P s → runSteps k s = .next { s with cycles := s.cycles + k } := by
  induction k with
  | zero => exact fun _ _ => rfl
  | succ k ih =>
    intro s hs
    rw [runSteps_succ (hstep s hs), ih s.countCycle (hkept s hs), State.countCycle_cycles, Nat.add_assoc, Nat.add_comm 1 k]
    rfl

/-- Settles O14: a poll with no key pressed only counts the cycle, and presses no key. -/
theorem waitWithoutAKeyHangs : Obligations.WaitWithoutAKeyHangs := by
  unfold Obligations.WaitWithoutAKeyHangs
  intro k s hr hno
  exact runSteps_of_step_counts (P := fun s => s.runState = .waitingForKey ∧ ¬ AnyKey s) (fun _ h => h)
    (fun _ h => step_waiting_of_not_anyKey h.1 h.2) k s ⟨hr, hno⟩

/-- A parked engine's step executes the jump to where it stands (R349). -/
theorem step_of_parked {s : State} (h : Parked s) : step s = .next s.countCycle := by
  obtain ⟨hr, hpc, nnn, hw, hself⟩ := h
  have hd : decode config (wordAtPc s) = .instr (.jpNnn nnn) := hw ▸ decodeEncodeRoundTrip config (.jpNnn nnn) rfl
  calc step s = exec (.jpNnn nnn) s.countCycle := stepRunsTheDecodedInstruction s _ hr hpc hd
    _ = .next (s.countCycle.setPc s.pc) := by rw [hself]; rfl
    _ = .next s.countCycle := rfl

/-- Settles O16: a parked step only counts the cycle, and being parked does not look at `Cycles`. -/
theorem parkedRunsStayParked : Obligations.ParkedRunsStayParked := by
  unfold Obligations.ParkedRunsStayParked
  exact fun k s h => ⟨runSteps_of_step_counts (fun _ h => h) (fun _ => step_of_parked) k s h, h⟩

/-! ### The run of an empty memory (R344) -/

/-- `MEM_SIZE` of this package's machine (R9). -/
theorem config_memSize : config.memSize = 4096 := rfl

/-- Past the font every byte is 0 after reset. -/
theorem resetByte_past_font {a : Nat} (h : 80 ≤ a) : resetByte a = 0x00#8 := by
  have hrow : 16 ≤ a / 5 := by omega
  have hnone : fontGlyphs[a / 5]? = none := List.getElem?_eq_none hrow
  simp [resetByte, fontBase, fontGlyphBytes, fontRow, List.getD_eq_getElem?_getD, hnone]

/-- The state `j` steps after reset with nothing loaded. -/
def emptyRun (j : Nat) : State := { State.reset with pc := BitVec.ofNat 16 (0x200 + 2 * j), cycles := j }

theorem emptyRun_pc_toNat {j : Nat} (h : j ≤ 1792) : (emptyRun j).pc.toNat = 0x200 + 2 * j := by
  simp only [emptyRun, BitVec.toNat_ofNat]
  omega

/-- Inside memory a step of that run is a no-op. -/
theorem step_emptyRun {j : Nat} (h : j < 1792) : step (emptyRun j) = .next (emptyRun (j + 1)) := by
  have hpc := emptyRun_pc_toNat (Nat.le_of_lt h)
  have hfetched : (emptyRun j).pc.toNat + 1 < config.memSize := by
    rw [hpc, config_memSize]
    omega
  have hw : wordAtPc (emptyRun j) = 0x0000#16 := by
    have hhigh : (emptyRun j).mem.read (emptyRun j).pc.toNat = 0x00#8 := resetByte_past_font (by omega)
    have hlow : (emptyRun j).mem.read ((emptyRun j).pc.toNat + 1) = 0x00#8 := resetByte_past_font (by omega)
    rw [wordAtPc, hhigh, hlow]
    rfl
  have hd : decode config (wordAtPc (emptyRun j)) = .instr (.sysNnn 0x000#12) := hw ▸ rfl
  have hnext : (emptyRun j).pc + 2#16 = (emptyRun (j + 1)).pc := by
    apply BitVec.eq_of_toNat_eq
    rw [BitVec.toNat_add, hpc, emptyRun_pc_toNat h, BitVec.toNat_ofNat]
    omega
  calc step (emptyRun j) = exec (.sysNnn 0x000#12) (emptyRun j).countCycle :=
        stepRunsTheDecodedInstruction (emptyRun j) _ rfl hfetched hd
    _ = .next ((emptyRun j).countCycle.setPc ((emptyRun j).pc + 2#16)) := rfl
    _ = .next (emptyRun (j + 1)) := by rw [hnext]; rfl

/-- The run inside memory, with any number of steps still to go. -/
theorem runSteps_emptyRun {j : Nat} (k : Nat) (h : j ≤ 1792) : runSteps (j + k) (emptyRun 0) = runSteps k (emptyRun j) := by
  induction j generalizing k with
  | zero => rw [Nat.zero_add]
  | succ j ih => rw [Nat.add_assoc, Nat.add_comm 1 k, ih (k + 1) (by omega), runSteps_succ (step_emptyRun h)]

/-- Settles O15: the no-ops by induction, then the fetch fault at the end of memory. -/
theorem emptyMemoryRunsOffTheEnd : Obligations.EmptyMemoryRunsOffTheEnd := by
  unfold Obligations.EmptyMemoryRunsOffTheEnd
  have hfault : step (emptyRun 1792) = .next ((emptyRun 1792).countCycle.takeFault .memoryOutOfBounds 0x0000#16) :=
    stepWith_running_fault rfl (fetchInstr_of_fetch_none (State.fetch_eq_none_iff.mpr (by decide)))
  exact ⟨runSteps_emptyRun 0 le_rfl, (runSteps_emptyRun 1 le_rfl).trans (runSteps_succ hfault)⟩

end Sys2Proof.Machine
end

section
/-! PROOFS. The invariant holds after reset and is kept by every step and every host operation (R20, R31, R40, R121,
R126, R305). -/

namespace Sys2Proof.Machine

/-! ### What the invariant says outside `Halted` -/

/-- Every stack entry in use is the address of a CALL that was fetched (R31). -/
def CallsStacked (s : State) : Prop := ∀ k (h : k < 16), k < s.sp.val → (s.stack[k]'h).toNat + 1 < config.memSize

theorem Inv.diag_eq_none {s : State} (h : Inv s) (hr : s.runState ≠ .halted) : s.diag = none := by
  simpa using mt h.haltedIffDiag.mpr hr

/-- An engine that is not halted meets the invariant by its memory, its stack and its `PC`. -/
theorem Inv.of_not_halted {s : State} (hm : s.mem.wf = true) (hr : s.runState ≠ .halted) (hd : s.diag = none)
    (hw : s.runState = .waitingForKey → s.pc.toNat + 1 < config.memSize) (hs : CallsStacked s)
    (hpc : s.pc.toNat ≤ 0x10FE) : Inv s where
  memory := hm
  haltedIffDiag := by simp [hr, hd]
  diagHere d h := by cases hd.symm.trans h
  diagCause d h := by cases hd.symm.trans h
  waiting := hw
  stack := hs
  pcBound := hpc

/-- Settles O51: the reset state runs with memory in its one form and an empty stack. -/
theorem resetMeetsTheInvariant : Obligations.ResetMeetsTheInvariant := by
  unfold Obligations.ResetMeetsTheInvariant
  exact .of_not_halted rfl nofun rfl nofun nofun (by decide)

/-! ### The invariant over the shared operations -/

theorem ownFault_congr {cfg : Config} {s t : State} (hi : t.i = s.i) (hsp : t.sp = s.sp) (i : Instr) :
    ownFault cfg i t = ownFault cfg i s := by
  cases i <;> simp only [ownFault, hi, hsp]

theorem DiagJustified.congr {s t : State} {d : Diag} (hpc : t.pc = s.pc) (hi : t.i = s.i) (hsp : t.sp = s.sp)
    (h : DiagJustified s d) : DiagJustified t d := by
  simpa only [DiagJustified, hpc, ownFault_congr hi hsp] using h

theorem Inv.countCycle {s : State} (h : Inv s) (hr : s.runState ≠ .halted) : Inv s.countCycle :=
  .of_not_halted h.memory hr (h.diag_eq_none hr) h.waiting h.stack h.pcBound

/-- A poll moves `PC` only from an address that was fetched (R126). -/
theorem Inv.poll {s : State} (h : Inv s) (hr : s.runState = .waitingForKey) : Inv s.poll := by
  cases hk : lowestPressed s.key with
  | none =>
    rw [State.poll_none hk]
    exact h
  | some k =>
    have hfetched : s.pc.toNat + 1 < 4096 := h.waiting hr
    have hpc : (s.pc + 2#16).toNat ≤ 0x10FE := by bv_omega
    rw [State.poll_some hk]
    exact .of_not_halted h.memory nofun (h.diag_eq_none (by simp [hr])) nofun h.stack hpc

/-- A fault whose condition holds is justified by it (R305). -/
theorem Inv.takeFault {s : State} {kind : FaultKind} {w : Word} (h : Inv s)
    (hcause : DiagJustified s ⟨kind, w, s.pc, s.cycles⟩) : Inv (s.takeFault kind w) where
  memory := h.memory
  haltedIffDiag := by simp
  diagHere d hd := by cases hd; exact ⟨rfl, rfl⟩
  diagCause d hd := by cases hd; exact hcause.congr rfl rfl rfl
  waiting := nofun
  stack := h.stack
  pcBound := h.pcBound

/-! ### The invariant over the instructions -/

/-- Memory is left alone, or a block inside it is stored. -/
def StoresInside (s t : State) : Prop :=
  t.mem = s.mem ∨ ∃ first bytes, first + bytes.length ≤ config.memSize ∧ t.mem = s.mem.writeBytes first bytes

theorem StoresInside.wf {s t : State} (h : StoresInside s t) (hm : s.mem.wf = true) : t.mem.wf = true := by
  obtain h | ⟨first, bytes, hfit, h⟩ := h
  · exact h ▸ hm
  · exact h ▸ Memory.wf_writeBytes bytes hm hfit

/-- The addresses an instruction that completes may leave in `PC` (R126, R127, R171 to R174, R179). -/
inductive NextPc (s : State) : Word → Prop where
  | stay : NextPc s s.pc
  | next : NextPc s (s.pc + 2#16)
  | skip : NextPc s (s.pc + 4#16)
  | jump (nnn : Addr) : NextPc s (zextAddr nnn)
  | offset (nnn : Addr) (b : Byte) : NextPc s (zextAddr nnn + zextByte b)
  | back (h : s.sp.val ≠ 0) : NextPc s (s.stack[s.sp.val - 1]'(by omega) + 2#16)

theorem nextPc_skipIf (s : State) (c : Bool) : NextPc s (s.skipIf c).pc := by
  cases c with
  | true => exact .skip
  | false => exact .next

/-- From an address that was fetched, with fetched addresses on the stack, `PC` goes no higher than a jump with offset takes it
(R174). -/
theorem NextPc.le {s : State} {a : Word} (h : NextPc s a) (hpc : s.pc.toNat + 1 < config.memSize) (hs : CallsStacked s) :
    a.toNat ≤ 0x10FE := by
  rw [config_memSize] at hpc
  cases h with
  | stay => omega
  | next => bv_omega
  | skip => bv_omega
  | jump nnn =>
    have hn := nnn.isLt
    simp only [zextAddr, BitVec.toNat_setWidth]
    omega
  | offset nnn b =>
    have hn := nnn.isLt
    have hb := b.isLt
    simp only [zextAddr, zextByte, BitVec.toNat_add, BitVec.toNat_setWidth]
    omega
  | back hsp =>
    have hcall : (s.stack[s.sp.val - 1]'(by omega)).toNat + 1 < 4096 := hs (s.sp.val - 1) (by omega) (by omega)
    generalize s.stack[s.sp.val - 1]'_ = a at hcall
    bv_omega

theorem CallsStacked.pop {s t : State} {a : Word} (hs : CallsStacked s) (h : s.pop = some (a, t)) : CallsStacked t := by
  obtain ⟨_, -, rfl⟩ := State.pop_eq_some h
  exact fun k hk hlt => hs k hk (Nat.lt_of_lt_of_le hlt (Nat.sub_le _ _))

theorem CallsStacked.push {s t : State} {a : Word} (hs : CallsStacked s) (ha : a.toNat + 1 < config.memSize)
    (h : s.push a = some t) : CallsStacked t := by
  obtain ⟨_, rfl⟩ := State.push_eq_some h
  intro k hk hlt
  have hlt : k < s.sp.val + 1 := hlt
  simp only [Vector.getElem_set]
  split
  · exact ha
  · exact hs k hk (by omega)

/-- Where no fault of its own arises, an instruction that was fetched stores inside memory, leaves one of those addresses in
`PC`, and keeps fetched addresses on the stack, a CALL by pushing its own. -/
theorem exec_completes {i : Instr} {s : State} (h : ownFault config i s = none) (hpc : s.pc.toNat + 1 < config.memSize)
    (hs : CallsStacked s) :
    ∃ t, exec i s = .next t ∧ StoresInside s t ∧ NextPc s t.pc ∧ CallsStacked t := by
  rw [exec_eq_execIn]
  cases i with
  | sysNnn | cls | ldVxKk | addVxKk | ldVxVy | orVxVy | andVxVy | xorVxVy | addVxVy | subVxVy | shrVxVy | subnVxVy | shlVxVy
  | ldINnn | rndVxKk | ldVxDt | ldDtVx | ldStVx | addIVx | ldFVx =>
    exact ⟨_, rfl, .inl rfl, .next, hs⟩
  | seVxKk | sneVxKk | seVxVy | sneVxVy | skpVx | sknpVx => exact ⟨_, rfl, .inl rfl, nextPc_skipIf s _, hs⟩
  | jpNnn nnn => exact ⟨_, rfl, .inl rfl, .jump nnn, hs⟩
  | jpV0Nnn nnn => exact ⟨_, rfl, .inl rfl, .offset nnn _, hs⟩
  | ret =>
    have hsp : s.sp.val ≠ 0 := by simpa [ownFault] using h
    cases hp : s.pop with
    | none => exact absurd (State.pop_eq_none hp) hsp
    | some r =>
      have hr : CallsStacked r.2 := hs.pop hp
      obtain ⟨_, ha, ht⟩ := State.pop_eq_some hp
      exact ⟨_, execIn_ret_of_pop hp, .inl (by simp [ht]), ha ▸ .back hsp, hr⟩
  | callNnn nnn =>
    have hsp : s.sp.val ≠ 16 := by simpa [ownFault] using h
    cases hp : s.push s.pc with
    | none => exact absurd (State.push_eq_none hp) hsp
    | some u =>
      have hu : CallsStacked u := hs.push hpc hp
      obtain ⟨_, ht⟩ := State.push_eq_some hp
      exact ⟨_, execIn_callNnn_of_push hp, .inl (by simp [ht]), .jump nnn, hu⟩
  | ldVxK x =>
    cases hk : lowestPressed s.key with
    | some k => exact ⟨_, execIn_ldVxK_of_some hk, .inl rfl, .next, hs⟩
    | none => exact ⟨_, execIn_ldVxK_of_none hk, .inl rfl, .stay, hs⟩
  | drwVxVyN x y n =>
    have hb : inBounds config s.i.toNat n.toNat = true := by simpa [ownFault_drwVxVyN] using h
    exact ⟨_, if_pos hb, .inl rfl, .next, hs⟩
  | ldBVx x =>
    have hb : inBounds config s.i.toNat 3 = true := by simpa [ownFault_ldBVx] using h
    have hfit : s.i.toNat + (bcdDigits (s.reg x)).length ≤ config.memSize := ((inBounds_iff _ _ _).mp hb).resolve_left nofun
    exact ⟨_, if_pos hb, .inr ⟨_, _, hfit, rfl⟩, .next, hs⟩
  | ldMemVx x =>
    have hb : inBounds config s.i.toNat (blockLength x) = true := by simpa [ownFault_ldMemVx] using h
    have hfit : s.i.toNat + (blockRegs s x).length ≤ config.memSize := by
      rw [length_blockRegs]
      exact ((inBounds_iff _ _ _).mp hb).resolve_left nofun
    exact ⟨_, if_pos hb, .inr ⟨_, _, hfit, rfl⟩, .next, hs⟩
  | ldVxMem x =>
    have hb : inBounds config s.i.toNat (blockLength x) = true := by simpa [ownFault_ldVxMem] using h
    exact ⟨_, if_pos hb, .inl rfl, .next, hs⟩

/-- Executing the instruction a fetched word decodes to. -/
theorem Inv.exec {i : Instr} {w : Word} {s t : State} (h : Inv s) (hr : s.runState = .running)
    (hpc : s.pc.toNat + 1 < config.memSize) (hd : decode config w = .instr i) (he : exec i s = .next t) : Inv t := by
  obtain ⟨kind, hown, ht⟩ | ⟨hown, u, hu, hframe⟩ := exec_cases i s
  · cases ht.symm.trans he
    have hdec : decode config (encode i) = .instr i := decodeEncodeRoundTrip config i (decodedWordsReencode config w i hd).1
    exact h.takeFault (.inr (.inr ⟨i, hdec, hown⟩))
  · cases hu.symm.trans he
    obtain ⟨u, hu, hmem, hnext, hstack⟩ := exec_completes hown hpc h.stack
    cases hu.symm.trans he
    obtain ⟨u, hu, hhalt, hwait⟩ := exec_runState i hr
    cases hu.symm.trans he
    have hdiag : t.diag = s.diag := hframe.others .diag (diag_notMem_effects i)
    refine .of_not_halted (hmem.wf h.memory) (by simp [hhalt, hown]) (hdiag.trans (h.diag_eq_none (by simp [hr])))
      (fun hw => ?_) hstack (hnext.le hpc h.stack)
    obtain ⟨⟨x, rfl⟩, hno⟩ := hwait.mp hw
    cases ((exec_eq_execIn _ _).trans (execIn_ldVxK_of_none ((lowestPressed_none_iff s).mpr hno))).symm.trans he
    exact hpc

/-- Settles O52: by what a step can do, each case by the lemma about that operation. -/
theorem stepKeepsTheInvariant : Obligations.StepKeepsTheInvariant := by
  unfold Obligations.StepKeepsTheInvariant
  intro s t h hstep
  obtain ⟨-, ht⟩ | ⟨hr, ht⟩ | ⟨hr, hf, ht⟩ | ⟨w, hr, -, hd, ht⟩ | ⟨w, i, hr, hf, hd, ht⟩ := step_cases s
  · cases ht.symm.trans hstep
    exact h
  · cases ht.symm.trans hstep
    exact (h.countCycle (by simp [hr])).poll hr
  · cases ht.symm.trans hstep
    exact (h.countCycle (by simp [hr])).takeFault (.inl ⟨rfl, rfl, State.fetch_eq_none_iff.mp hf⟩)
  · cases ht.symm.trans hstep
    exact (h.countCycle (by simp [hr])).takeFault (.inr (.inl ⟨rfl, hd⟩))
  · exact (h.countCycle (by simp [hr])).exec hr (State.fetch_eq_some hf).1 hd (ht.symm.trans hstep)

/-! ### The invariant over the host's operations -/

/-- The items the invariant speaks of, but memory, are the same. -/
theorem Inv.congr {s t : State} (h : Inv s) (hm : t.mem.wf = true) (hr : t.runState = s.runState) (hd : t.diag = s.diag)
    (hpc : t.pc = s.pc) (hi : t.i = s.i) (hsp : t.sp = s.sp) (hstack : t.stack = s.stack) (hc : t.cycles = s.cycles) :
    Inv t where
  memory := hm
  haltedIffDiag := by rw [hr, hd]; exact h.haltedIffDiag
  diagHere d e := by rw [hpc, hc]; exact h.diagHere d (hd ▸ e)
  diagCause d e := (h.diagCause d (hd ▸ e)).congr hpc hi hsp
  waiting e := by rw [hpc]; exact h.waiting (hr ▸ e)
  stack k hk hlt := by simpa only [hstack] using h.stack k hk (hsp ▸ hlt)
  pcBound := by rw [hpc]; exact h.pcBound

/-- A load writes inside memory or not at all (R346). -/
theorem Inv.load {s : State} (h : Inv s) (bytes : List Byte) (offset : Word) : Inv (s.load config bytes offset).2 := by
  by_cases hfit : offset.toNat + bytes.length ≤ config.memSize
  · rw [State.load_fits hfit]
    exact h.congr (Memory.wf_writeBytes bytes h.memory hfit) rfl rfl rfl rfl rfl rfl rfl
  · rw [State.load_refused hfit]
    exact h

/-- Settles O53: a step by O52, a reset by O51, a load by its bounds check; the other calls leave the invariant's items alone. -/
theorem everyHostCallKeepsTheInvariant : Obligations.EveryHostCallKeepsTheInvariant := by
  unfold Obligations.EveryHostCallKeepsTheInvariant
  intro call s t r h hcall
  cases call with
  | step =>
    obtain ⟨u, hu⟩ := stepAlwaysAnswersANextState s
    cases (perform_step hu).symm.trans hcall
    exact stepKeepsTheInvariant s t h hu
  | reset =>
    cases hcall
    exact resetMeetsTheInvariant.congr rfl rfl rfl rfl rfl rfl rfl rfl
  | load bytes offset =>
    cases hcall
    exact h.load bytes offset
  | flush =>
    cases hcall
    rw [State.flush_state]
    exact h.congr h.memory rfl rfl rfl rfl rfl rfl rfl
  | tick | setKey | view | isHalted | diagnostics | soundActive =>
    cases hcall
    exact h.congr h.memory rfl rfl rfl rfl rfl rfl rfl

end Sys2Proof.Machine
end

section
/-! PROOFS. Arithmetic, logic, shifts and RND (spec/43_arithmetic_logic.md R201 to R215). -/

namespace Sys2Proof.Machine

/-! ### Flags and byte arithmetic as the spec writes them -/

theorem flagByte_decide (p : Prop) [Decidable p] : flagByte (decide p) = if p then 1#8 else 0#8 := by
  simp only [flagByte, decide_eq_true_iff]

/-- The difference of two bytes is their difference as numbers, modulo 256 (R207, R209). -/
theorem byteSub_eq_ofNat_mod (a b : Byte) : a - b = BitVec.ofNat 8 ((a.toNat + 256 - b.toNat) % 256) := by
  apply BitVec.eq_of_toNat_eq
  rw [BitVec.toNat_sub, BitVec.toNat_ofNat]
  omega

theorem shiftRight_one_eq_ofNat (v : Byte) : v >>> 1 = BitVec.ofNat 8 (v.toNat / 2) := by
  apply BitVec.eq_of_toNat_eq
  simp [Nat.shiftRight_eq_div_pow]
  omega

theorem shiftLeft_one_eq_ofNat (v : Byte) : v <<< 1 = BitVec.ofNat 8 (v.toNat * 2 % 256) := by
  apply BitVec.eq_of_toNat_eq
  simp [Nat.shiftLeft_eq]

theorem shiftedOutRight_eq_ofNat (v : Byte) : shiftedOutRight v = BitVec.ofNat 8 (v.toNat % 2) := by
  obtain h | h : v.toNat % 2 = 0 ∨ v.toNat % 2 = 1 := by omega
  · simp [shiftedOutRight, flagByte, BitVec.getLsbD, Nat.testBit_zero, h]
  · simp [shiftedOutRight, flagByte, BitVec.getLsbD, Nat.testBit_zero, h]

theorem shiftedOutLeft_eq_ofNat (v : Byte) : shiftedOutLeft v = BitVec.ofNat 8 (v.toNat / 128) := by
  have hv := v.isLt
  obtain h | h : v.toNat / 128 = 0 ∨ v.toNat / 128 = 1 := by omega
  · simp [shiftedOutLeft, flagByte, BitVec.getLsbD, Nat.testBit_eq_decide_div_mod_eq, h]
  · simp [shiftedOutLeft, flagByte, BitVec.getLsbD, Nat.testBit_eq_decide_div_mod_eq, h]

/-! ### Logic -/

/-- The end of a logic operation, under both settings of `LOGIC_RESETS_VF` (R203 to R205, D13). -/
theorem logicResult_spec (cfg : Config) (x : RegIdx) (r : Byte) (s : State) :
    ∃ t, logicResult cfg x r s = .next t ∧ LogicResult cfg s t x r := by
  cases h : cfg.logicResetsVF with
  | true =>
    exact ⟨(s.setRegAndFlag x r 0x00#8).advance, if_pos h, fun _ => flagResult_setRegAndFlag s x r 0x00#8, by simp [h]⟩
  | false => exact ⟨(s.setReg x r).advance, if_neg (by simp [h]), by simp [h], fun _ => plainResult_setReg s x r⟩

/-- Settles O21: each operation ends in the shared logic result. -/
theorem logicResults : Obligations.LogicResults := by
  unfold Obligations.LogicResults
  exact .of_execIn fun cfg x y s =>
    ⟨logicResult_spec cfg x (s.reg x ||| s.reg y) s, logicResult_spec cfg x (s.reg x &&& s.reg y) s,
      logicResult_spec cfg x (s.reg x ^^^ s.reg y) s⟩

/-! ### Results with a flag -/

/-- Settles O22: the byte sum, then the carry. -/
theorem addResult : Obligations.AddResult := by
  unfold Obligations.AddResult
  intro x y s
  rw [← byteAdd_eq_ofNat_mod, ← flagByte_decide]
  exact ⟨rfl, _, rfl, flagResult_setRegAndFlag s x _ _⟩

/-- Settles O23: the byte difference, then `VF` = not borrow. -/
theorem subResult : Obligations.SubResult := by
  unfold Obligations.SubResult
  intro x y s
  rw [← byteSub_eq_ofNat_mod, ← flagByte_decide]
  exact ⟨rfl, _, rfl, flagResult_setRegAndFlag s x _ _⟩

/-- Settles O24: the byte difference the other way, then `VF` = not borrow. -/
theorem reverseSubResult : Obligations.ReverseSubResult := by
  unfold Obligations.ReverseSubResult
  intro x y s
  rw [← byteSub_eq_ofNat_mod, ← flagByte_decide]
  exact ⟨rfl, _, rfl, flagResult_setRegAndFlag s x _ _⟩

/-- Settles O25: the operand is the one `SHIFT_SOURCE` names; the shift, then the bit shifted out. -/
theorem shiftResults : Obligations.ShiftResults := by
  unfold Obligations.ShiftResults
  refine .of_execIn fun cfg x y s v hv => ?_
  have hoperand : shiftOperand cfg x y s = v := hv.symm
  rw [← shiftRight_one_eq_ofNat, ← shiftLeft_one_eq_ofNat, ← shiftedOutRight_eq_ofNat, ← shiftedOutLeft_eq_ofNat,
    ← hoperand]
  exact ⟨⟨_, rfl, flagResult_setRegAndFlag s x _ _⟩, ⟨_, rfl, flagResult_setRegAndFlag s x _ _⟩⟩

/-! ### Random and repeated adds -/

/-- Settles O26: the masked oracle byte is written and the draw counted. -/
theorem randomResult : Obligations.RandomResult := by
  unfold Obligations.RandomResult
  exact fun x kk s => ⟨rfl, _, rfl, State.reg_setReg_same s x (s.rand &&& kk), rfl, rfl, .of_setReg rfl rfl rfl⟩

/-- Settles O27: adding `kk` twice adds twice `kk` to the one register written. -/
theorem twoAddsAreOneDoubleAdd : Obligations.TwoAddsAreOneDoubleAdd := by
  unfold Obligations.TwoAddsAreOneDoubleAdd
  intro x kk s
  refine ⟨_, _, _, rfl, rfl, rfl, fun y => ?_⟩
  have hsum : s.reg x + kk + kk = s.reg x + 2#8 * kk := by bv_omega
  simp only [State.advance_reg, State.reg_setReg, if_pos, hsum]
  split <;> rfl

end Sys2Proof.Machine
end

section
/-! PROOFS. SYS, JP V0, CALL with RET, and the skips between registers (spec/42_control_flow.md R170 to R180). -/

namespace Sys2Proof.Machine

/-- Settles O28: SYS only advances. -/
theorem sysCallIsANoOp : Obligations.SysCallIsANoOp := by
  unfold Obligations.SysCallIsANoOp
  exact fun _ s => ⟨_, rfl, jumpResult_setPc s (s.pc + 2#16)⟩

/-- Settles O35: SE skips on the test of equality, SNE on that of inequality. -/
theorem skipsBetweenRegisters : Obligations.SkipsBetweenRegisters := by
  unfold Obligations.SkipsBetweenRegisters
  exact fun x y s => ⟨⟨_, rfl, jumpResult_skipIf s beq_iff_eq⟩, ⟨_, rfl, jumpResult_skipIf s bne_iff_ne⟩⟩

/-! ### The jump with offset -/

theorem zextAddr_add_zextByte (nnn : Addr) (b : Byte) : zextAddr nnn + zextByte b = BitVec.ofNat 16 (nnn.toNat + b.toNat) := by
  apply BitVec.eq_of_toNat_eq
  simp [zextAddr, zextByte]

/-- Settles O30: the sum does not wrap at 12 bits; without the jump the word takes the decode fault. -/
theorem jumpWithOffset : Obligations.JumpWithOffset := by
  unfold Obligations.JumpWithOffset
  refine ⟨fun nnn s => ?_, fun cfg nnn s hmode hr hpc hw => ?_⟩
  · rw [← zextAddr_add_zextByte]
    exact ⟨_, rfl, jumpResult_setPc s _⟩
  · have hd : decode cfg (wordAtPc s) = .unknownOpcode := by
      rw [hw]
      exact (illegalWordsAreExactlyTheListed cfg _).mpr (.inr (.inr (.inr ⟨fieldClass_formatA _ _, hmode⟩)))
    rw [← hw]
    exact stepWith_running_fault hr (fetchInstr_of_unknownOpcode hpc hd)

/-! ### Call and return -/

theorem exec_callNnn_of_lt {s : State} (nnn : Addr) (h : s.sp.val < 16) : exec (.callNnn nnn) s = .next
    (({ s with stack := s.stack.set s.sp.val s.pc h, sp := ⟨s.sp.val + 1, by omega⟩ } : State).setPc (zextAddr nnn)) :=
  (exec_eq_execIn _ s).trans (execIn_callNnn_of_push (State.push_of_lt s s.pc h))

/-- Settles O31: the push with room, the instruction's own fault without. -/
theorem callPushesItsAddress : Obligations.CallPushesItsAddress := by
  unfold Obligations.CallPushesItsAddress
  refine fun nnn s => ⟨?_, fun hsp => ?_⟩
  · rintro k hk rfl
    refine ⟨_, exec_callNnn_of_lt nnn hk, Vector.getElem_set_self hk, fun j hj hne => ?_, rfl, rfl, .of_parts rfl rfl⟩
    exact Vector.getElem_set_ne hk hj hne.symm
  · have hfault : ownFault config (.callNnn nnn) s = some .stackOverflow := if_pos hsp
    exact (exec_eq_execIn _ s).trans (execIn_of_ownFault hfault)

/-- Settles O33: the RET pops the entry the CALL pushed. -/
theorem callThenReturnComesBack : Obligations.CallThenReturnComesBack := by
  unfold Obligations.CallThenReturnComesBack
  intro nnn s hsp
  refine ⟨_, _, exec_callNnn_of_lt nnn hsp,
    (exec_eq_execIn _ _).trans (execIn_ret_of_pop (State.pop_of_sp_eq_succ hsp rfl)), ?_, rfl, fun j hj hne => ?_,
    .of_parts rfl rfl⟩
  · exact congrArg (· + 2#16) (Vector.getElem_set_self hsp)
  · exact Vector.getElem_set_ne hsp hj hne.symm

end Sys2Proof.Machine
end

section
/-! PROOFS. The index register and the memory transfers (spec/44_index_memory.md R231 to R236; the fetch of stored code is R74,
R351). -/

namespace Sys2Proof.Machine

/-! ### The index register -/

/-- Settles O37: the 16-bit sum, then the boundary flag of the unbounded one. -/
theorem addToIndexResult : Obligations.AddToIndexResult := by
  unfold Obligations.AddToIndexResult
  intro x s
  rw [← flagByte_decide]
  exact ⟨_, rfl, BitVec.toNat_ofNat _ _, State.reg_setReg_same _ vf _, rfl, .of_setReg rfl rfl rfl⟩

theorem toNat_glyphAddress (b : Byte) : (glyphAddress b).toNat = 5 * b.toNat := by
  have hb := b.isLt
  simp only [glyphAddress, fontBase, fontGlyphBytes, BitVec.toNat_ofNat]
  omega

/-- Where the font lies after reset (R67). -/
theorem resetByte_glyph {d r : Nat} (hr : r < 5) : resetByte (5 * d + r) = fontRow d r := by
  have hd : (5 * d + r) / 5 = d := by omega
  have hm : (5 * d + r) % 5 = r := by omega
  simp [resetByte, fontBase, fontGlyphBytes, hd, hm]

/-- Settles O38: five bytes a glyph, and the glyph's rows at its address. -/
theorem fontAddressResult : Obligations.FontAddressResult := by
  unfold Obligations.FontAddressResult
  exact ⟨fun x s => ⟨_, rfl, toNat_glyphAddress (s.reg x), rfl, setI_advance_frame s _⟩,
    fun d r _ hr => resetByte_glyph hr⟩

/-! ### Stores -/

theorem Memory.read_writeBytes_at (m : Memory) (a : Nat) {bytes : List Byte} {k : Nat} (h : k < bytes.length) :
    (m.writeBytes a bytes).read (a + k) = bytes.getD k 0x00#8 := by
  rw [Memory.read_writeBytes, if_pos ⟨Nat.le_add_right a k, Nat.add_lt_add_left h a⟩, Nat.add_sub_cancel_left]

/-- LD B with its three bytes in memory (R233). -/
theorem execIn_ldBVx_of_lt {cfg : Config} {s : State} (x : RegIdx) (h : s.i.toNat + 2 < cfg.memSize) :
    execIn cfg (.ldBVx x) s = .next (s.storeBytes s.i.toNat (bcdDigits (s.reg x))).advance :=
  if_pos ((inBounds_iff _ _ _).mpr (.inr h))

/-- A block store with its bytes in memory (R234). -/
theorem execIn_ldMemVx_of_lt {cfg : Config} {s : State} {x : RegIdx} (h : s.i.toNat + x.toNat < cfg.memSize) :
    execIn cfg (.ldMemVx x) s =
      .next ((s.storeBytes s.i.toNat (blockRegs s x)).setI (indexAfterBlock cfg x s)).advance :=
  if_pos ((inBounds_iff _ _ _).mpr (.inr h))

/-- A block load with its bytes in memory (R235). -/
theorem execIn_ldVxMem_of_lt {cfg : Config} {s : State} {x : RegIdx} (h : s.i.toNat + x.toNat < cfg.memSize) :
    execIn cfg (.ldVxMem x) s = .next
      ((s.setRegs (loadRegs s.v 0 (s.mem.readBytes s.i.toNat (blockLength x)))).setI (indexAfterBlock cfg x s)).advance :=
  if_pos ((inBounds_iff _ _ _).mpr (.inr h))

/-- Settles O39: the three digits in memory, or the instruction's own fault. -/
theorem decimalStoreResult : Obligations.DecimalStoreResult := by
  unfold Obligations.DecimalStoreResult
  refine .of_execIn fun cfg x s => ⟨fun hin => ?_, fun hout => execIn_of_ownFault (if_pos hout)⟩
  have hread : ∀ k, k < 3 → ((s.storeBytes s.i.toNat (bcdDigits (s.reg x))).advance).mem.read (s.i.toNat + k) =
      (bcdDigits (s.reg x)).getD k 0x00#8 := fun k hk => Memory.read_writeBytes_at s.mem s.i.toNat hk
  have hb := (s.reg x).isLt
  refine ⟨_, execIn_ldBVx_of_lt x hin, ?hundreds, ?tens, ?units, rfl, .of_storeBytes (fun _ => id) rfl rfl⟩
  case hundreds => exact (congrArg BitVec.toNat (hread 0 (by omega))).trans (Nat.mod_eq_of_lt (by omega))
  case tens => exact (congrArg BitVec.toNat (hread 1 (by omega))).trans (Nat.mod_eq_of_lt (by omega))
  case units => exact (congrArg BitVec.toNat (hread 2 (by omega))).trans (Nat.mod_eq_of_lt (by omega))

/-- `I` after a block transfer, as R234 and R235 write it. -/
theorem indexAfterBlock_eq (cfg : Config) (x : RegIdx) (s : State) :
    indexAfterBlock cfg x s = if cfg.indexAdvance then BitVec.ofNat 16 (s.i.toNat + x.toNat + 1) else s.i := by
  have hsum : s.i + BitVec.ofNat 16 (blockLength x) = BitVec.ofNat 16 (s.i.toNat + x.toNat + 1) := by
    apply BitVec.eq_of_toNat_eq
    simp [blockLength, Nat.add_assoc]
  rw [indexAfterBlock, hsum]

/-- A block store leaves `V[k]` at `I + k`. -/
theorem read_storeBytes_blockRegs (s : State) {x k : RegIdx} (h : k ≤ x) :
    (s.storeBytes s.i.toNat (blockRegs s x)).mem.read (s.i.toNat + k.toNat) = s.reg k := by
  have hlen : k.toNat < (blockRegs s x).length := by
    rw [length_blockRegs]
    exact Nat.lt_succ_of_le (BitVec.le_def.mp h)
  exact (Memory.read_writeBytes_at s.mem s.i.toNat hlen).trans (blockRegs_getD s x k h 0x00#8)

/-- Settles O40: the registers in memory, or the instruction's own fault. -/
theorem blockStoreResult : Obligations.BlockStoreResult := by
  unfold Obligations.BlockStoreResult
  refine .of_execIn fun cfg x s => ⟨fun hin => ?_, fun hout => execIn_of_ownFault (if_pos hout)⟩
  have hstored : ∀ a, bytesFrom s.i.toNat (blockRegs s x).length a → bytesFrom s.i.toNat (x.toNat + 1) a := by simp
  exact ⟨_, execIn_ldMemVx_of_lt hin, fun k hk => read_storeBytes_blockRegs s hk, indexAfterBlock_eq cfg x s, rfl,
    .of_storeBytes hstored rfl rfl⟩

/-! ### Loads -/

/-- Settles O41: the bytes in the registers, or the instruction's own fault. -/
theorem blockLoadResult : Obligations.BlockLoadResult := by
  unfold Obligations.BlockLoadResult
  refine .of_execIn fun cfg x s => ⟨fun hin => ?_, fun hout => execIn_of_ownFault (if_pos hout)⟩
  have hown : ownFault cfg (.ldVxMem x) s = none := if_neg (Nat.not_le_of_lt hin)
  obtain ⟨t, ht, hframe⟩ := execIn_frame hown
  cases (execIn_ldVxMem_of_lt hin).symm.trans ht
  refine ⟨_, ht, fun k hk => ?_, indexAfterBlock_eq cfg x s, rfl, hframe⟩
  have hlt : k.toNat < blockLength x := Nat.lt_succ_of_le (BitVec.le_def.mp hk)
  exact (State.reg_loadRegs s s.mem s.i.toNat (blockLength x) k).trans (if_pos hlt)

/-- Settles O42: the load reads back what the store wrote. -/
theorem blockStoreThenLoadRestores : Obligations.BlockStoreThenLoadRestores := by
  unfold Obligations.BlockStoreThenLoadRestores
  intro x s hin
  obtain ⟨t, ht, hstored, -⟩ := (blockStoreResult.1 x s).1 hin
  obtain ⟨u, hu, hloaded, -⟩ := (blockLoadResult.1 x { t with v := Vector.replicate 16 0x00#8, i := s.i }).1 hin
  exact ⟨t, u, ht, hu, fun k hk => (hloaded k hk).trans (hstored k hk)⟩

/-- Settles O43: the store leaves the first two registers at the new `PC`, where memory is fetched as it then stands. -/
theorem storedCodeIsFetchedNext : Obligations.StoredCodeIsFetchedNext := by
  unfold Obligations.StoredCodeIsFetchedNext
  intro x s hx hi hin
  obtain ⟨t, ht, hstored, -, hpc, -⟩ := (blockStoreResult.1 x s).1 hin
  have hat : t.pc.toNat = s.i.toNat := by rw [hpc, hi]
  have hone : 1 ≤ x.toNat := BitVec.le_def.mp hx
  have hhigh : t.mem.read s.i.toNat = s.reg 0x0#4 := hstored 0x0#4 (BitVec.le_def.mpr (Nat.zero_le _))
  have hlow : t.mem.read (s.i.toNat + 1) = s.reg 0x1#4 := hstored 0x1#4 hx
  refine ⟨t, ht, State.fetch_eq_some_iff.mpr ⟨by omega, ?_⟩⟩
  rw [wordAtPc, hat, hhigh, hlow]

end Sys2Proof.Machine
end

section
/-! PROOFS. The key skips (spec/45_timers_keys.md R253, R254, R256). -/

namespace Sys2Proof.Machine

/-- Settles O45: by whether the register names a pressed key. -/
theorem keySkips : Obligations.KeySkips := by
  unfold Obligations.KeySkips
  refine fun x s => ⟨_, _, rfl, rfl, fun hkey => ?_, fun hkey => ?_⟩
  · rw [(keyPressed_iff s (s.reg x)).mpr hkey]
    exact ⟨jumpResult_setPc s _, jumpResult_setPc s _⟩
  · rw [Bool.eq_false_iff.mpr (mt (keyPressed_iff s (s.reg x)).mp hkey)]
    exact ⟨jumpResult_setPc s _, jumpResult_setPc s _⟩

end Sys2Proof.Machine
end

section
/-! PROOFS. CLS, and DRW in closed form (spec/41_display.md R150 to R157). -/

namespace Sys2Proof.Machine

/-! ### CLS -/

/-- Settles O47: the display is painted blank. -/
theorem clearScreenResult : Obligations.ClearScreenResult := by
  unfold Obligations.ClearScreenResult
  exact ⟨rfl, fun s => ⟨(s.paint Display.blank).advance, rfl, Display.lit_blank, rfl, rfl, .of_parts rfl rfl⟩⟩

/-! ### Where a sprite's bits fall -/

/-- A sprite cell falls on the display cell that lies as far from the start as it does (R155). -/
theorem place_eq_some_iff {edge : DrawEdge} {cy cx r b : Nat} {p : Cell} (hcy : cy < 32) (hcx : cx < 64) (hr : r < 32)
    (hb : b < 64) : place edge (cy + r) (cx + b) = some p ↔
      offsetFrom edge 32 cy p.1.val = some r ∧ offsetFrom edge 64 cx p.2.val = some b := by
  obtain ⟨⟨row, hrow⟩, ⟨col, hcol⟩⟩ := p
  cases edge with
  | wrap =>
    simp only [place, offsetFrom, Option.some.injEq, Prod.mk.injEq, Fin.mk.injEq]
    omega
  | clip =>
    simp only [place, offsetFrom, Option.dite_none_right_eq_some, Option.ite_none_right_eq_some, Option.some.injEq,
      Prod.mk.injEq, Fin.mk.injEq, exists_prop]
    omega

theorem spriteCovers_iff {cfg : Config} {s : State} {x y : RegIdx} {n : Nibble} {p : Cell} :
    spriteCovers cfg s x y n p = true ↔ ∃ r b, offsetFrom cfg.drawEdge 32 ((s.reg y).toNat % 32) p.1.val = some r ∧
      offsetFrom cfg.drawEdge 64 ((s.reg x).toNat % 64) p.2.val = some b ∧ r < n.toNat ∧ b < 8 ∧
      (s.mem.read (s.i.toNat + r)).getLsbD (7 - b) = true := by
  unfold spriteCovers
  split
  · next r b hr hb => simp [hr, hb, and_assoc]
  · next hnone =>
    refine iff_of_false nofun ?_
    rintro ⟨r, b, hr, hb, -⟩
    exact hnone r b hr hb

/-- The cells a draw toggles are those the sprite covers. -/
theorem mem_spriteCells_iff_spriteCovers {cfg : Config} {s : State} {x y : RegIdx} {n : Nibble} {p : Cell} :
    p ∈ spriteCells cfg.drawEdge (drawOrigin s x y).1 (drawOrigin s x y).2 (spriteBytes s n) ↔
      spriteCovers cfg s x y n p = true := by
  have hn := n.isLt
  have hcy : (s.reg y).toNat % 32 < 32 := Nat.mod_lt _ (by omega)
  have hcx : (s.reg x).toNat % 64 < 64 := Nat.mod_lt _ (by omega)
  rw [mem_spriteCells, spriteCovers_iff]
  simp only [spriteBytes, drawOrigin, Memory.length_readBytes, Memory.getD_readBytes]
  constructor
  · rintro ⟨r, b, hr, hb, hbit, hplace⟩
    obtain ⟨hrow, hcol⟩ := (place_eq_some_iff hcy hcx (by omega) (by omega)).mp hplace
    exact ⟨r, b, hrow, hcol, hr, hb, by simpa [hr] using hbit⟩
  · rintro ⟨r, b, hrow, hcol, hr, hb, hbit⟩
    exact ⟨r, b, hr, hb, by simpa [hr] using hbit, (place_eq_some_iff hcy hcx (by omega) (by omega)).mpr ⟨hrow, hcol⟩⟩

/-- What a sprite covers depends on its two registers, `I` and memory alone. -/
theorem spriteCovers_congr {cfg : Config} {s t : State} {x y : RegIdx} (hx : t.reg x = s.reg x) (hy : t.reg y = s.reg y)
    (hi : t.i = s.i) (hm : ∀ a, t.mem.read a = s.mem.read a) (n : Nibble) (p : Cell) :
    spriteCovers cfg t x y n p = spriteCovers cfg s x y n p := by
  simp only [spriteCovers, hx, hy, hi, hm]

/-! ### DRW -/

theorem length_spriteBytes_le (s : State) (n : Nibble) : (spriteBytes s n).length ≤ 16 := by
  rw [spriteBytes, Memory.length_readBytes]
  exact Nat.le_of_lt n.isLt

/-- A draw toggles the cells the sprite covers (R152). -/
theorem lit_drawSprite (cfg : Config) (s : State) (x y : RegIdx) (n : Nibble) (p : Cell) :
    (drawSprite cfg s x y n).1.lit p = (s.disp.lit p ^^ spriteCovers cfg s x y n p) := by
  have hdraw := (drawCells_spec s.disp _ (nodup_spriteCells cfg.drawEdge (drawOrigin s x y).1 (drawOrigin s x y).2 _
    (length_spriteBytes_le s n))).1 p
  rw [drawSprite, hdraw]
  simp only [mem_spriteCells_iff_spriteCovers]
  cases spriteCovers cfg s x y n p <;> simp

/-- A draw hits when the sprite covers a lit cell (R154). -/
theorem drawSprite_hit_iff (cfg : Config) (s : State) (x y : RegIdx) (n : Nibble) :
    (drawSprite cfg s x y n).2 = true ↔ ∃ p, spriteCovers cfg s x y n p = true ∧ s.disp.lit p = true := by
  have hdraw := (drawCells_spec s.disp _ (nodup_spriteCells cfg.drawEdge (drawOrigin s x y).1 (drawOrigin s x y).2 _
    (length_spriteBytes_le s n))).2
  rw [drawSprite, hdraw, List.any_eq_true]
  simp only [mem_spriteCells_iff_spriteCovers]

/-- DRW with its sprite in memory (R152). -/
theorem execIn_drwVxVyN_of_inBounds {cfg : Config} {s : State} {x y : RegIdx} {n : Nibble}
    (h : inBounds cfg s.i.toNat n.toNat = true) : execIn cfg (.drwVxVyN x y n) s = .next
      ((s.setReg vf (collisionFlag (drawSprite cfg s x y n).2)).paint (drawSprite cfg s x y n).1).advance :=
  if_pos h

/-- Settles O48: the draw and its hit in closed form, or the instruction's own fault. -/
theorem drawTogglesExactlyTheSprite : Obligations.DrawTogglesExactlyTheSprite := by
  unfold Obligations.DrawTogglesExactlyTheSprite
  refine .of_execIn fun cfg x y n s => ⟨fun hin => ?_, fun hn hout => ?_⟩
  · have hb : inBounds cfg s.i.toNat n.toNat = true := by
      rw [inBounds_iff]
      obtain rfl | hin := hin
      · exact .inl rfl
      · omega
    refine ⟨_, execIn_drwVxVyN_of_inBounds hb, lit_drawSprite cfg s x y n, fun hit => ?_, fun hmiss => ?_, rfl, rfl,
      .of_setReg rfl rfl rfl⟩
    · have h : (drawSprite cfg s x y n).2 = true := (drawSprite_hit_iff cfg s x y n).mpr hit
      simp [h, collisionFlag, flagByte]
    · have h : (drawSprite cfg s x y n).2 = false := by
        rw [Bool.eq_false_iff, ne_eq, drawSprite_hit_iff]
        rintro ⟨p, hcover, hlit⟩
        exact Bool.false_ne_true ((hmiss p hcover).symm.trans hlit)
      simp [h, collisionFlag, flagByte]
  · have hpos : 0 < n.toNat := Nat.pos_of_ne_zero fun h => hn (BitVec.eq_of_toNat_eq h)
    exact execIn_of_ownFault (if_pos ⟨hpos, hout⟩)

/-- Two draws of the same cells cancel. -/
theorem disp_eq_of_lit_xor_twice {d d' d'' : Display} {covers covers' : Cell → Bool}
    (h : ∀ p, d'.lit p = (d.lit p ^^ covers p)) (h' : ∀ p, d''.lit p = (d'.lit p ^^ covers' p))
    (hsame : ∀ p, covers' p = covers p) : d'' = d :=
  Display.ext_lit fun p => by rw [h', h, hsame, Bool.xor_assoc, Bool.xor_self, Bool.xor_false]

/-- Settles O49: the second draw covers the cells the first did, as it leaves `I`, memory and every register but `VF`. -/
theorem drawingTwiceRestoresTheDisplay : Obligations.DrawingTwiceRestoresTheDisplay := by
  unfold Obligations.DrawingTwiceRestoresTheDisplay
  intro x y n s hin
  obtain ⟨t, ht, hlit, -, -, -, -, hframe⟩ := (drawTogglesExactlyTheSprite.1 x y n s).1 hin
  have hi : t.i = s.i := hframe.others .index (by simp)
  have hm : ∀ a, t.mem.read a = s.mem.read a := fun a => hframe.memory a id
  obtain ⟨u, hu, hlitu, -⟩ := (drawTogglesExactlyTheSprite.1 x y n { t with v := s.v }).1 (hi ▸ hin)
  obtain ⟨w, hw, hlitw, -⟩ := (drawTogglesExactlyTheSprite.1 x y n t).1 (hi ▸ hin)
  refine ⟨t, u, w, ht, hu, ?_, hw, fun hx hy => ?_⟩
  · exact disp_eq_of_lit_xor_twice hlit hlitu fun p =>
      spriteCovers_congr (s := s) (t := { t with v := s.v }) rfl rfl hi hm n p
  · exact disp_eq_of_lit_xor_twice hlit hlitw fun p =>
      spriteCovers_congr (hframe.registers x hx) (hframe.registers y hy) hi hm n p

/-- Settles O50: after CLS no cell is lit. -/
theorem firstDrawAfterClearNeverCollides : Obligations.FirstDrawAfterClearNeverCollides := by
  unfold Obligations.FirstDrawAfterClearNeverCollides
  intro x y n s hin
  obtain ⟨u, hu, -, -, hmiss, -⟩ := (drawTogglesExactlyTheSprite.1 x y n (s.paint Display.blank).advance).1 hin
  exact ⟨_, u, rfl, hu, hmiss fun p _ => Display.lit_blank p⟩

end Sys2Proof.Machine
end

section
/-! PROOFS. The operations of the host (spec/10_state.md R45, R46; spec/60_exceptions.md R306, R320 to R325;
spec/70_reset_and_hazards.md R340, R346). -/

namespace Sys2Proof.Machine

/-! ### Single operations -/

/-- Settles O54: the operation gives the reset state with the count of draws kept, whose items are read off. -/
theorem resetRestoresEveryItem : Obligations.ResetRestoresEveryItem := by
  unfold Obligations.ResetRestoresEveryItem
  refine fun s => ⟨s.resetOp, rfl, rfl, rfl, rfl, fun a => resetByte_past_font, fun y => ?regs, rfl, rfl, fun k hk => ?stack,
    rfl, rfl, rfl, Display.lit_blank, rfl, ?keys, rfl, rfl, rfl, rfl⟩
  case regs => exact Vector.getElem_replicate y.isLt
  case stack => exact Vector.getElem_replicate hk
  case keys =>
    rintro ⟨k, hk⟩
    exact Bool.false_ne_true ((Vector.getElem_replicate k.isLt).symm.trans hk)

/-- Settles O56: by whether the bytes fit. -/
theorem loadIsAllOrNothing : Obligations.LoadIsAllOrNothing := by
  unfold Obligations.LoadIsAllOrNothing
  refine fun cfg bytes offset s => ⟨fun hfit => ?_, fun hno => ?_⟩
  · refine ⟨s.storeBytes offset.toNat bytes, by simp only [performIn, State.load_fits hfit], fun j hj => ?_,
      .of_storeBytes (fun _ => id) rfl rfl⟩
    have hread : (s.storeBytes offset.toNat bytes).mem.read (offset.toNat + j) = bytes.getD j 0x00#8 :=
      Memory.read_writeBytes_at s.mem offset.toNat hj
    rw [hread, List.getD_eq_getElem _ _ hj]
    exact List.getElem?_eq_getElem hj
  · simp only [performIn, State.load_refused (Nat.not_le_of_lt hno)]

/-- Settles O57: the one key is set. -/
theorem setKeyWritesOneKey : Obligations.SetKeyWritesOneKey := by
  unfold Obligations.SetKeyWritesOneKey
  refine fun k b s => ⟨s.setKey k b, rfl, ?_, fun j hj => ?_, rfl⟩
  · rw [State.getElem_setKey, if_pos rfl]
  · rw [State.getElem_setKey, if_neg hj]

/-- Settles O58: by whether the buffer is dirty. -/
theorem flushHandsOverOnce : Obligations.FlushHandsOverOnce := by
  unfold Obligations.FlushHandsOverOnce
  refine fun s => ⟨fun hdirty => ?_, fun hclean => ?_⟩
  · simp only [perform, performIn, State.flush, hdirty, if_true]
  · simp only [perform, performIn, State.flush, hclean, Bool.false_eq_true, if_false]

/-- Settles O59: each call reports its item and gives the state back. -/
theorem readOnlyCallsChangeNothing : Obligations.ReadOnlyCallsChangeNothing := by
  unfold Obligations.ReadOnlyCallsChangeNothing
  refine fun s => ⟨rfl, ?_, rfl, ?_⟩
  · have hhalted : s.isHalted = decide (s.runState = .halted) := Bool.eq_iff_iff.mpr (beq_iff_eq.trans decide_eq_true_iff.symm)
    exact hhalted ▸ rfl
  · exact State.soundActive_eq_decide s ▸ rfl

/-! ### Sequences of operations -/

/-- A sequence answers call by call. -/
theorem performAll_cons {call : HostCall} {calls : List HostCall} {s t u : State} {r : Reply} {rs : List Reply}
    (h : perform call s = .next (r, t)) (hrest : performAll calls t = .next (rs, u)) :
    performAll (call :: calls) s = .next (r :: rs, u) := by
  simp only [performAll, h, hrest]

/-- Settles O55: by induction on the number of ticks, each lowering a timer by 1 down to 0. -/
theorem ticksCountDownToZero : Obligations.TicksCountDownToZero := by
  unfold Obligations.TicksCountDownToZero
  intro k
  induction k with
  | zero => exact fun s => ⟨[], s, rfl, rfl, rfl, rfl⟩
  | succ k ih =>
    intro s
    obtain ⟨rs, t, ht, hdt, hst, hframe⟩ := ih s.tick
    refine ⟨_, t, performAll_cons rfl ht, ?_, ?_, hframe⟩
    · rw [hdt, State.tick_dt, toNat_countDown, Nat.sub_sub, Nat.add_comm]
    · rw [hst, State.tick_st, toNat_countDown, Nat.sub_sub, Nat.add_comm]

/-- Every operation answers: a step by O8, every other one at once. -/
theorem perform_answers (call : HostCall) (s : State) : ∃ r t, perform call s = .next (r, t) := by
  cases call with
  | step =>
    obtain ⟨t, ht⟩ := stepAlwaysAnswersANextState s
    exact ⟨_, t, perform_step ht⟩
  | reset | load | tick | setKey | flush | view | isHalted | diagnostics | soundActive => exact ⟨_, _, rfl⟩

/-- Settles O60: by induction on the calls, each of which answers. -/
theorem everyHostSequenceAnswers : Obligations.EveryHostSequenceAnswers := by
  unfold Obligations.EveryHostSequenceAnswers
  intro calls
  induction calls with
  | nil => exact fun s => ⟨[], s, rfl, rfl⟩
  | cons call calls ih =>
    intro s
    obtain ⟨r, t, ht⟩ := perform_answers call s
    obtain ⟨rs, u, hu, hlen⟩ := ih t
    exact ⟨r :: rs, u, performAll_cons ht hu, congrArg (· + 1) hlen⟩

end Sys2Proof.Machine
end
